-- ==== Sys2Proof/Word.lean ====
section
/-! DEFINITION. The two widths of the block (rule R9): 8-bit registers and bytes, 16-bit program
counter and addresses. Neither is a parameter. -/

namespace Sys2Proof

/-- A register value, a memory byte or an instruction byte: `REG_WIDTH` = 8 bits, unsigned (R9, R20). -/
abbrev Byte := BitVec 8

/-- An address or the program counter: `ADDR_WIDTH` = `PC_WIDTH` = 16 bits, unsigned (R9, R25, R41).
Its addition wraps at 2^16, which is the wrap of R27. -/
abbrev Addr := BitVec 16

end Sys2Proof
end

