-- ==== Sys2Proof/Syntax.lean ====
section
/-! DEFINITION. The instruction set as syntax: the eight mnemonics of R2 and R70, and `Instr`, the
closed tagged variant that R72 asks for, with one constructor per row of the opcode table. -/

namespace Sys2Proof

/-- The eight mnemonics of the reference set (R2, R70): the domain of the parameter `OPCODE`. -/
inductive Mnemonic where
  | loadImm | add | sub | mlp | div | store | loadMem | halt
  deriving DecidableEq, Repr

/-- The mnemonics in the order of R70. -/
def Mnemonic.all : List Mnemonic :=
  [.loadImm, .add, .sub, .mlp, .div, .store, .loadMem, .halt]

/-- The four operand layouts of R61: N, RI, RR, RA. -/
inductive Format where
  /-- R62: no operand byte. -/
  | n
  /-- R63: a register byte, then an immediate byte. -/
  | ri
  /-- R64: the `dst` byte, then the `src` byte. -/
  | rr
  /-- R65: a register byte, then the high and the low byte of an address. -/
  | ra
  deriving DecidableEq, Repr

/-- A decoded instruction.

A register field is the whole operand byte, `0 .. 255`, neither masked nor reduced (R23, R67): the
check against `N_REGS` belongs to execution (R85), so every byte stands here. The two address bytes
are already composed into one 16-bit address (R69).

`unknown` is the table's row `unknown_opcode`: a first byte that is no opcode (R71, R152). It is no
instruction of the ISA, and its one effect is the fault `UNKNOWN_OPCODE`. -/
inductive Instr where
  /-- `LOAD_IMM Rreg, #imm` (R101). -/
  | loadImm (reg imm : Byte)
  /-- `ADD Rdst, Rsrc` (R112). -/
  | add (dst src : Byte)
  /-- `SUB Rdst, Rsrc` (R113). -/
  | sub (dst src : Byte)
  /-- `MLP Rdst, Rsrc` (R114). -/
  | mlp (dst src : Byte)
  /-- `DIV Rdst, Rsrc` (R115). -/
  | div (dst src : Byte)
  /-- `STORE Rreg, addr` (R131). -/
  | store (reg : Byte) (addr : Addr)
  /-- `LOAD_MEM Rreg, addr` (R132). -/
  | loadMem (reg : Byte) (addr : Addr)
  /-- `HALT` (R151). -/
  | halt
  /-- A byte that is no opcode (R152). -/
  | unknown (op : Byte)
  deriving DecidableEq, Repr

/-- The mnemonic an instruction is written with. An unknown byte has none. -/
def Instr.mnemonic : Instr → Option Mnemonic
  | .loadImm _ _ => some .loadImm
  | .add _ _ => some .add
  | .sub _ _ => some .sub
  | .mlp _ _ => some .mlp
  | .div _ _ => some .div
  | .store _ _ => some .store
  | .loadMem _ _ => some .loadMem
  | .halt => some .halt
  | .unknown _ => none

/-- The register fields of an instruction in offset order: for format RR `dst` before `src` (R85). -/
def Instr.regFields : Instr → List Byte
  | .loadImm reg _ => [reg]
  | .add dst src => [dst, src]
  | .sub dst src => [dst, src]
  | .mlp dst src => [dst, src]
  | .div dst src => [dst, src]
  | .store reg _ => [reg]
  | .loadMem reg _ => [reg]
  | .halt => []
  | .unknown _ => []

end Sys2Proof
end

