-- ==== Sys2Proof/Config.lean ====
section
/-! DEFINITION. The configuration record of the block (R7, R10, R11): what is fixed before a run.
The defaults are in Machine/Params.lean. `ENTRY` and `PRIV_MODE` are arguments of the start (R80,
R200) and stand there. -/

namespace Sys2Proof

/-- `DIV_ZERO_POLICY` (R11, R118): what `DIV` does when the divisor is 0. -/
inductive DivZeroPolicy where
  /-- Raise `DIV_BY_ZERO`, leaving `x[dst]` unchanged. -/
  | fault
  /-- The model gives the step no meaning and refuses it. -/
  | undefined
  deriving DecidableEq, Repr

/-- `OPCODE` (R11, R70): a byte value for each mnemonic. Injectivity is `OpcodeMap.Injective`. -/
structure OpcodeMap where
  loadImm : Byte
  add : Byte
  sub : Byte
  mlp : Byte
  div : Byte
  store : Byte
  loadMem : Byte
  halt : Byte
  deriving DecidableEq, Repr

/-- `OPCODE(m)`. -/
def OpcodeMap.get (o : OpcodeMap) : Mnemonic → Byte
  | .loadImm => o.loadImm
  | .add => o.add
  | .sub => o.sub
  | .mlp => o.mlp
  | .div => o.div
  | .store => o.store
  | .loadMem => o.loadMem
  | .halt => o.halt

/-- R70: `OPCODE` is injective, that is, the eight values are pairwise different. -/
abbrev OpcodeMap.Injective (o : OpcodeMap) : Prop :=
  (Mnemonic.all.map o.get).Nodup

/-- The configuration, fixed for the whole run (R80). -/
structure Config where
  /-- `N_REGS` (R8). -/
  nRegs : Nat
  /-- `MEM_SIZE` (R10), in bytes. -/
  memSize : Nat
  /-- `PRIV_END` (R10): the last privileged address, inclusive. -/
  privEnd : Addr
  /-- `OPCODE` (R11). -/
  opcode : OpcodeMap
  /-- `DIV_ZERO_POLICY` (R11). -/
  divZeroPolicy : DivZeroPolicy
  /-- `FAULT_PC_ADVANCE` (R11): whether a denied fetch still increments `pc`. -/
  faultPcAdvance : Bool
  deriving DecidableEq, Repr

/-- The constraints R10 and R11 put on the parameters: 1 to 256 registers (the toolchain, which would
need at most 10, is not used), 1 to 65536 bytes, an injective `OPCODE`. `PRIV_END`'s range is its
type. -/
abbrev Config.Valid (c : Config) : Prop :=
  (1 ≤ c.nRegs ∧ c.nRegs ≤ 256) ∧ (1 ≤ c.memSize ∧ c.memSize ≤ 65536) ∧ c.opcode.Injective

end Sys2Proof
end

