-- ==== Sys2Proof/Machine/Params.lean ====
section
/-! DEFINITION. The default of every parameter (R10, R11, R70), and the two start parameters that the
state after reset is given (log entries 2 and 3). -/

namespace Sys2Proof

/-- The default `OPCODE` (R70, decision D1): the spec's own choice, not the repository's values. -/
def OpcodeMap.default : OpcodeMap where
  loadImm := 0x01
  add := 0x02
  sub := 0x03
  mlp := 0x04
  div := 0x05
  store := 0x06
  loadMem := 0x07
  halt := 0x08

/-- The default configuration (R10, R11). -/
def Config.default : Config where
  nRegs := 8
  memSize := 65536
  privEnd := 0x2000
  opcode := OpcodeMap.default
  divZeroPolicy := .fault
  faultPcAdvance := false

/-- The origin and `ENTRY` of the reset state: R203's default `ENTRY = org`, with the origin 0 of a
program that has no `.org` (R169). -/
def Machine.resetEntry : Addr := 0x0000

/-- The `PRIV_MODE` of the reset state. DESIGN CHOICE (log entry 3): R204 gives no default; `true` is
the one mode in which a program at origin 0 can run (R206). -/
def Machine.resetPriv : Bool := true

end Sys2Proof
end

