-- ==== Sys2Proof/WellFormed.lean ====
section
/-! DEFINITION. Which instruction terms stand for bytes of the hardware (`wellFormed`, the domain of
the encoder's round trip), and which of those are legal encodings in the sense of R73 (`legal`). -/

namespace Sys2Proof

/-- No mnemonic has this opcode byte (R70: every other byte value is no instruction). -/
def OpcodeMap.free (o : OpcodeMap) (op : Byte) : Bool :=
  Mnemonic.all.all fun m => o.get m != op

/-- A term that some byte sequence decodes to. Every operand byte is admitted (R67, R68, R69), so the
only ill-formed terms are `unknown op` for a byte `op` that is an opcode. -/
def Instr.wellFormed (o : OpcodeMap) : Instr → Bool
  | .loadImm _ _ => true
  | .add _ _ => true
  | .sub _ _ => true
  | .mlp _ _ => true
  | .div _ _ => true
  | .store _ _ => true
  | .loadMem _ _ => true
  | .halt => true
  | .unknown op => o.free op

/-- A legal encoding (R73): a known opcode, and every register field below `N_REGS`. What is not legal
has a defined effect all the same: a fault. -/
def Instr.legal (c : Config) (i : Instr) : Bool :=
  i.mnemonic.isSome && i.regFields.all fun f => decide (f.toNat < c.nRegs)

end Sys2Proof
end

