-- ==== Sys2Proof/Decode.lean ====
section
/-! DEFINITION. Bytes to instructions and back, from the format tables R61 to R65 and the opcode map
R70. The decoder is total; the encoder is written from the same tables. -/

namespace Sys2Proof

/-! ### Formats and lengths (R61) -/

/-- The format column of R61. -/
def Mnemonic.format : Mnemonic → Format
  | .loadImm => .ri
  | .add => .rr
  | .sub => .rr
  | .mlp => .rr
  | .div => .rr
  | .store => .ra
  | .loadMem => .ra
  | .halt => .n

/-- Operand bytes after the opcode byte: zero, two or three (R60, R62 to R65). -/
def Format.operandBytes : Format → Nat
  | .n => 0
  | .ri => 2
  | .rr => 2
  | .ra => 3

/-- The one length lookup of R78: how many operand bytes follow this mnemonic's opcode byte. -/
def Mnemonic.operandBytes (m : Mnemonic) : Nat := m.format.operandBytes

/-- Total encoded length in bytes, the opcode byte included (R61). -/
def Mnemonic.length (m : Mnemonic) : Nat := 1 + m.operandBytes

/-- The bytes an instruction takes. An unknown byte counts as 1: the engine fetches that one byte
before it faults (R152), and the disassembler advances by 1 (R76). -/
def Instr.length (i : Instr) : Nat :=
  match i.mnemonic with
  | some m => m.length
  | none => 1

/-! ### Decoding -/

/-- `Decode` of R71, one arm per mnemonic; `none` is `Unknown`. -/
def decodeOpcode (o : OpcodeMap) (op : Byte) : Option Mnemonic :=
  if op = o.loadImm then some .loadImm
  else if op = o.add then some .add
  else if op = o.sub then some .sub
  else if op = o.mlp then some .mlp
  else if op = o.div then some .div
  else if op = o.store then some .store
  else if op = o.loadMem then some .loadMem
  else if op = o.halt then some .halt
  else none

/-- `hi ++ lo` of R69: big-endian, the high byte first (R48, R133). -/
def composeAddr (hi lo : Byte) : Addr := hi ++ lo

/-- The byte at offset +2 of an RA instruction: bits [15:8] of the address (R65). -/
def addrHi (a : Addr) : Byte := a.extractLsb' 8 8

/-- The byte at offset +3 of an RA instruction: bits [7:0] of the address (R65). -/
def addrLo (a : Addr) : Byte := a.extractLsb' 0 8

/-- The instruction a mnemonic and its operand bytes +1, +2 and +3 stand for (R63 to R65). A byte past
the format's length is not looked at. -/
def assemble (m : Mnemonic) (b1 b2 b3 : Byte) : Instr :=
  match m with
  | .loadImm => .loadImm b1 b2
  | .add => .add b1 b2
  | .sub => .sub b1 b2
  | .mlp => .mlp b1 b2
  | .div => .div b1 b2
  | .store => .store b1 (composeAddr b2 b3)
  | .loadMem => .loadMem b1 (composeAddr b2 b3)
  | .halt => .halt

/-- `assemble` on a list of operand bytes, of which the caller supplies `m.operandBytes`. -/
def assembleBytes (m : Mnemonic) (bs : List Byte) : Instr :=
  assemble m (bs.getD 0 0) (bs.getD 1 0) (bs.getD 2 0)

/-- Why a byte list is no whole instruction. No byte value is among the reasons: every first byte is an
opcode or `unknown` (R74). -/
inductive DecodeError where
  /-- There is no byte at all. -/
  | empty
  /-- The opcode is known, and its operand bytes are not all there. -/
  | truncated (m : Mnemonic)
  deriving DecidableEq, Repr

/-- The instruction at the head of a byte list, and the bytes after it (R60, R71, R76). -/
def decode (o : OpcodeMap) (bytes : List Byte) : Except DecodeError (Instr × List Byte) :=
  match bytes with
  | [] => .error .empty
  | op :: rest =>
    match decodeOpcode o op with
    | none => .ok (.unknown op, rest)
    | some m =>
      if rest.length < m.operandBytes then .error (.truncated m)
      else .ok (assembleBytes m (rest.take m.operandBytes), rest.drop m.operandBytes)

/-! ### Encoding -/

/-- The first byte of an instruction (R62 to R65, offset +0). -/
def encodeHead (o : OpcodeMap) (i : Instr) : Byte :=
  match i with
  | .loadImm _ _ => o.loadImm
  | .add _ _ => o.add
  | .sub _ _ => o.sub
  | .mlp _ _ => o.mlp
  | .div _ _ => o.div
  | .store _ _ => o.store
  | .loadMem _ _ => o.loadMem
  | .halt => o.halt
  | .unknown op => op

/-- The operand bytes of an instruction in offset order (R63 to R65). -/
def encodeOperands (i : Instr) : List Byte :=
  match i with
  | .loadImm reg imm => [reg, imm]
  | .add dst src => [dst, src]
  | .sub dst src => [dst, src]
  | .mlp dst src => [dst, src]
  | .div dst src => [dst, src]
  | .store reg addr => [reg, addrHi addr, addrLo addr]
  | .loadMem reg addr => [reg, addrHi addr, addrLo addr]
  | .halt => []
  | .unknown _ => []

/-- The bytes of a well-formed instruction, the first at the lowest address. -/
def encode (o : OpcodeMap) (i : Instr) : List Byte :=
  encodeHead o i :: encodeOperands i

/-! ### The opcode table's own numbering -/

/-- The longest instruction in bytes (R61). -/
def maxLength : Nat := 4

/-- Byte `k` of a word numbered as the opcode table numbers it: byte 0 is bits 7..0. -/
def tableByte (w k : Nat) : Byte := BitVec.ofNat 8 (w / 2 ^ (8 * k))

/-- The bytes, in address order, of the instruction whose bits are `w`: bit 0 is the least significant
bit of the first byte, the second byte is bits 15..8, and every bit from `nbits` up is 0. -/
def tableBytes (nbits w : Nat) : List Byte :=
  (List.range maxLength).map (tableByte (w % 2 ^ nbits))

/-- What the decoder reads from an opcode-table word under the default `OPCODE`. -/
def decodeTableWord (nbits w : Nat) : Option Instr :=
  match decode Config.default.opcode (tableBytes nbits w) with
  | .ok (i, _) => some i
  | .error _ => none

end Sys2Proof
end

