-- ==== Sys2Proof/Machine/State.lean ====
section
/-! DEFINITION. Everything the spec gives the machine, as plain data: the state of R37, the event list
of R193 and the configuration of R80. With it the two ways a step can stop. -/

namespace Sys2Proof.Machine

/-- Why the gate denied an access (R45). -/
inductive DenyReason where
  /-- `OUT_OF_BOUNDS`. -/
  | outOfBounds
  /-- `PRIVILEGE`. -/
  | privilege
  deriving DecidableEq, Repr

/-- `halt_reason` (R32), the eight values of R181. The numeric codes are `HaltReason.code`. -/
inductive HaltReason where
  /-- `NONE`: the engine is Running. -/
  | none
  /-- `HALT_INSTR`: a `HALT` instruction ran. -/
  | haltInstr
  /-- `FETCH_DENIED`. -/
  | fetchDenied
  /-- `UNKNOWN_OPCODE`. -/
  | unknownOpcode
  /-- `INVALID_REGISTER`. -/
  | invalidRegister
  /-- `DATA_READ_DENIED`. -/
  | dataReadDenied
  /-- `DATA_WRITE_DENIED`. -/
  | dataWriteDenied
  /-- `DIV_BY_ZERO`. -/
  | divByZero
  deriving DecidableEq, Repr

/-- What a fault records beside its cause: the last column of R181. -/
inductive FaultInfo where
  /-- The denied address and which condition denied it. -/
  | denied (addr : Addr) (reason : DenyReason)
  /-- The address and the value of the byte that is no opcode. -/
  | opcode (addr : Addr) (op : Byte)
  /-- A register index: the first invalid field, or the `src` of a division by zero. -/
  | index (idx : Byte)
  deriving DecidableEq, Repr

/-- The severity levels of the event stream (R193). The core emits the last two. -/
inductive Severity where
  | info | debug | warn | trace | error | unauthorizedAccess
  deriving DecidableEq, Repr

/-- One event of the output list (R193): it carries the fault's `halt_reason` and `fault_info`. -/
structure Event where
  severity : Severity
  reason : HaltReason
  info : Option FaultInfo
  deriving DecidableEq, Repr

/-- The protected memory `M` (R35, R40): addresses strictly rising, no entry equal to what an unlisted
address reads as. Machine/Ops.lean says what that is and states the form. -/
abbrev Memory := List Host.Cell

/-- The state of the block. -/
structure State where
  /-- The configuration (R7, R80). It is no state of the block: it stands here because the step takes
  no other argument, and no step writes it (log entry 1). -/
  cfg : Config
  /-- `x[0] .. x[N_REGS-1]` (R20), in index order. -/
  regs : List Byte
  /-- `pc` (R25). -/
  pc : Addr
  /-- `running` (R30): `true` is Running, `false` is Halted. -/
  running : Bool
  /-- `priv` (R31): `true` is privileged. -/
  priv : Bool
  /-- `halt_reason` (R32). -/
  haltReason : HaltReason
  /-- `fault_info` (R32). -/
  faultInfo : Option FaultInfo
  /-- `M` (R35). -/
  mem : Memory
  /-- The append-only event list (R193), oldest first. No rule reads it. -/
  events : List Event
  deriving DecidableEq, Repr

/-- The machine stops without a next state. The faults of the spec are not here: each of them has an
effect the spec gives (R15), so it is a next state that is Halted. -/
inductive Fault where
  /-- Raised by `step` alone, when `running = false`: a halted engine has no step (R83). Safe: the
  hardware has no step there either. -/
  | halted
  deriving DecidableEq, Repr

/-- The model gives the step no meaning. -/
inductive Refusal where
  /-- An instruction without a meaning, by its mnemonic in the opcode table. No arm of `exec` raises it.
  Safe. -/
  | notModelled (mnemonic : String)
  /-- Raised by `DIV` on a zero divisor when `DIV_ZERO_POLICY` is `undefined`: R118 has the model refuse
  that step. Safe: nothing can be proved of the step. -/
  | divByZeroUndefined
  deriving DecidableEq, Repr

/-- The machine right after reset, that is, at the start of a run (R37, R200, R202), for the default
configuration, an empty image and the start parameters of log entries 2 and 3. -/
def State.reset : State where
  cfg := Config.default
  regs := List.replicate Config.default.nRegs 0
  pc := resetEntry
  running := true
  priv := resetPriv
  haltReason := .none
  faultInfo := Option.none
  mem := []
  events := []

end Sys2Proof.Machine
end

