-- ==== Sys2Proof/Machine/Flags.lean ====
section
/-! DEFINITION. The block has no condition codes and no arithmetic flags, and no instruction reads or
writes one (R29). What it has of status is `running`, `priv`, `halt_reason` and `fault_info` (R33):
this file holds what the spec says about the values of the last two. -/

namespace Sys2Proof.Machine

/-- The code column of R181. -/
def HaltReason.code : HaltReason → Nat
  | .none => 0
  | .haltInstr => 1
  | .fetchDenied => 2
  | .unknownOpcode => 3
  | .invalidRegister => 4
  | .dataReadDenied => 5
  | .dataWriteDenied => 6
  | .divByZero => 7

/-- The "is a fault" column of R181. -/
def HaltReason.isFault : HaltReason → Bool
  | .none => false
  | .haltInstr => false
  | .fetchDenied => true
  | .unknownOpcode => true
  | .invalidRegister => true
  | .dataReadDenied => true
  | .dataWriteDenied => true
  | .divByZero => true

/-- The `fault_info` column of R181: which information a halt reason comes with. -/
def HaltReason.fits (r : HaltReason) (info : Option FaultInfo) : Bool :=
  match r, info with
  | .none, Option.none => true
  | .haltInstr, Option.none => true
  | .fetchDenied, some (.denied _ _) => true
  | .unknownOpcode, some (.opcode _ _) => true
  | .invalidRegister, some (.index _) => true
  | .dataReadDenied, some (.denied _ _) => true
  | .dataWriteDenied, some (.denied _ _) => true
  | .divByZero, some (.index _) => true
  | _, _ => false

/-- The severity of a fault's event (R193): `unauthorized-access` for a `PRIVILEGE` denial, `error`
for every other fault. -/
def severityOf (info : Option FaultInfo) : Severity :=
  match info with
  | some (.denied _ .privilege) => .unauthorizedAccess
  | some (.denied _ .outOfBounds) => .error
  | some (.opcode _ _) => .error
  | some (.index _) => .error
  | Option.none => .error

/-- The one event a fault emits (R193). -/
def faultEvent (r : HaltReason) (info : Option FaultInfo) : Event where
  severity := severityOf info
  reason := r
  info := info

end Sys2Proof.Machine
end

