-- ==== Sys2Proof/Machine/Ops.lean ====
section
/-! DEFINITION. The operations every instruction is written over: raw memory, the privilege gate and
the two gated accesses (R42 to R45), raising a fault and halting (R15, R151), and fetching an
instruction's bytes (R81, R82). -/

namespace Sys2Proof.Machine

/-! ### The byte array `M` -/

/-- What an address that nothing has written reads as: the array is created zero-filled (R35). -/
def blankByte : Byte := 0

/-- The canonical form: addresses strictly rising, no entry equal to `blankByte`. -/
abbrev Memory.wf (m : Memory) : Prop :=
  m.Pairwise (fun c d => c.1 < d.1) ∧ ∀ c ∈ m, c.2 ≠ blankByte

/-- `M[a]` (R13), with no gate. -/
def Memory.read (m : Memory) (a : Nat) : Byte :=
  match m with
  | [] => blankByte
  | (b, v) :: rest => if a = b then v else Memory.read rest a

/-- The entry for `v` at `a` before the entries `rest`: none when `v` is what `a` reads as anyway. -/
def Memory.entry (a : Nat) (v : Byte) (rest : Memory) : Memory :=
  if v = blankByte then rest else (a, v) :: rest

/-- `M[a] <- v` (R13), with no gate. -/
def Memory.write (m : Memory) (a : Nat) (v : Byte) : Memory :=
  match m with
  | [] => Memory.entry a v []
  | (b, w) :: rest =>
    if a < b then Memory.entry a v ((b, w) :: rest)
    else if a = b then Memory.entry a v rest
    else (b, w) :: Memory.write rest a v

/-! ### The privilege gate -/

/-- `Allowed(a, p)` of R42: the gate decides from the address and the flag alone. -/
def allowed (c : Config) (a : Addr) (p : Bool) : Bool :=
  decide (a.toNat < c.memSize) && (p || decide (c.privEnd.toNat < a.toNat))

/-- Which condition a denial records: `OUT_OF_BOUNDS` when both hold (R45). -/
def denyReason (c : Config) (a : Addr) : DenyReason :=
  if c.memSize ≤ a.toNat then .outOfBounds else .privilege

/-- `MemRead(a, 1)` of R43, with the engine's own `priv` (R46). A denied read is an `error`. -/
def memRead (s : State) (a : Addr) : Except DenyReason Byte :=
  if allowed s.cfg a s.priv then .ok (s.mem.read a.toNat) else .error (denyReason s.cfg a)

/-- The state with `M[a] <- v`. -/
def storeByte (s : State) (a : Addr) (v : Byte) : State :=
  { s with mem := s.mem.write a.toNat v }

/-- `MemWrite(a, 1, v)` of R44, with the engine's own `priv` (R46). A denied write is an `error`, and
there is then no new state. -/
def memWrite (s : State) (a : Addr) (v : Byte) : Except DenyReason State :=
  if allowed s.cfg a s.priv then .ok (storeByte s a v)
  else .error (denyReason s.cfg a)

/-! ### Halting -/

/-- `raise Fault(cause, info)` of R15: the engine halts, the cause and its information are recorded,
one event is appended (R193), and nothing else is written. There is no trap entry, no saved `pc` and
no handler (R180, R185), and no way back (R186). -/
def raiseFault (cause : HaltReason) (info : FaultInfo) (s : State) : State :=
  { s with
    running := false
    haltReason := cause
    faultInfo := some info
    events := s.events ++ [faultEvent cause (some info)] }

/-- `ExecHalt` of R151. -/
def haltNormally (s : State) : State :=
  { s with running := false, haltReason := .haltInstr }

/-! ### Fetching -/

/-- `pc` moved on over `n` bytes, modulo 2^16 (R26, R27). -/
def advance (n : Nat) (s : State) : State := { s with pc := s.pc + BitVec.ofNat 16 n }

/-- The state after a denied fetch at `pc` (R81): `pc` stays, or moves on by 1 when
`FAULT_PC_ADVANCE` is set. -/
def fetchDenied (reason : DenyReason) (s : State) : State :=
  raiseFault .fetchDenied (.denied s.pc reason) (if s.cfg.faultPcAdvance then advance 1 s else s)

/-- `Fetch8()` of R81. An `error` is the halted state after `FETCH_DENIED`. -/
def fetch8 (s : State) : Except State (Byte × State) :=
  match memRead s s.pc with
  | .error reason => .error (fetchDenied reason s)
  | .ok b => .ok (b, advance 1 s)

/-- `n` operand bytes, one by one in offset order (R84, phase 3). -/
def fetchBytes (n : Nat) (s : State) : Except State (List Byte × State) :=
  match n with
  | 0 => .ok ([], s)
  | n + 1 =>
    match fetch8 s with
    | .error h => .error h
    | .ok (b, t) =>
      match fetchBytes n t with
      | .error h => .error h
      | .ok (bs, u) => .ok (b :: bs, u)

/-- Phases 1 to 3 of R84: the opcode byte, its decoding, and the operand bytes the opcode asks for. No
operand byte is fetched after an unknown opcode or a `HALT` (R93). -/
def fetchInstr (s : State) : Except State (Instr × State) :=
  match fetch8 s with
  | .error h => .error h
  | .ok (op, t) =>
    match decodeOpcode s.cfg.opcode op with
    | none => .ok (.unknown op, t)
    | some m =>
      match fetchBytes m.operandBytes t with
      | .error h => .error h
      | .ok (bs, u) => .ok (assembleBytes m bs, u)

end Sys2Proof.Machine
end

