-- ==== Sys2Proof/Machine/Operands.lean ====
section
/-! DEFINITION. The operand forms: a register (R67), which every instruction but `HALT` has, an
immediate (R68), which is the byte as it stands, and an absolute address (R69), which the decoder
composes. The register check of R85 is here, once. -/

namespace Sys2Proof.Machine

/-- `x[i]` (R13). `i` is below `N_REGS` wherever an instruction reads. -/
def readReg (s : State) (i : Byte) : Byte := s.regs.getD i.toNat 0

/-- `x[i] <- v` (R13). No register is hardwired (R21). -/
def writeReg (s : State) (i v : Byte) : State := { s with regs := s.regs.set i.toNat v }

/-- The first register field, in offset order, that names no register (R85). -/
def firstInvalid (nRegs : Nat) (fields : List Byte) : Option Byte :=
  fields.find? fun f => decide (nRegs ≤ f.toNat)

/-- Phase 4 of R84: `INVALID_REGISTER` with the first invalid field, or the rest of the instruction. -/
def withValidRegs (fields : List Byte) (s : State) (rest : Host.Outcome State Fault Refusal) :
    Host.Outcome State Fault Refusal :=
  match firstInvalid s.cfg.nRegs fields with
  | some f => .next (raiseFault .invalidRegister (.index f) s)
  | none => rest

end Sys2Proof.Machine
end

