-- ==== Sys2Proof/Machine/Arithmetic.lean ====
section
/-! DEFINITION. The register-to-register arithmetic family (R110): the shared handler of R111 and the
four functions it is used with. Each function computes on mathematical integers and narrows once, at
the end, as R12 reads. -/

namespace Sys2Proof.Machine

/-- `f_ADD` of R112. -/
def aluAdd (a b : Byte) : Byte := BitVec.ofNat 8 (a.toNat + b.toNat)

/-- `f_SUB` of R113: `src` is subtracted from `dst`. -/
def aluSub (a b : Byte) : Byte := BitVec.ofNat 8 (a.toNat + 256 - b.toNat)

/-- `f_MLP` of R114: the low 8 bits of the product. -/
def aluMlp (a b : Byte) : Byte := BitVec.ofNat 8 (a.toNat * b.toNat)

/-- `f_DIV` of R115: unsigned, rounding toward zero. Used for a divisor other than 0 only. -/
def aluDiv (a b : Byte) : Byte := BitVec.ofNat 8 (a.toNat / b.toNat)

/-- The last phase of R111: both operands are read, then `dst` is written. -/
def aluResult (f : Byte → Byte → Byte) (dst src : Byte) (s : State) : State :=
  writeReg s dst (f (readReg s dst) (readReg s src))

/-- `DivideByZero()` of R118. Under `fault` the engine halts with `DIV_BY_ZERO` and `x[dst]` is
unchanged. Under `undefined` the step is refused; no value is chosen for `x[dst]`. -/
def divideByZero (src : Byte) (s : State) : Host.Outcome State Fault Refusal :=
  match s.cfg.divZeroPolicy with
  | .fault => .next (raiseFault .divByZero (.index src) s)
  | .undefined => .refused .divByZeroUndefined

/-- `ADD Rdst, Rsrc` (R112). -/
def execAdd (dst src : Byte) (s : State) : Host.Outcome State Fault Refusal :=
  withValidRegs [dst, src] s (.next (aluResult aluAdd dst src s))

/-- `SUB Rdst, Rsrc` (R113). -/
def execSub (dst src : Byte) (s : State) : Host.Outcome State Fault Refusal :=
  withValidRegs [dst, src] s (.next (aluResult aluSub dst src s))

/-- `MLP Rdst, Rsrc` (R114). -/
def execMlp (dst src : Byte) (s : State) : Host.Outcome State Fault Refusal :=
  withValidRegs [dst, src] s (.next (aluResult aluMlp dst src s))

/-- `DIV Rdst, Rsrc` (R115). The divisor is checked after the registers and before the write (R84,
phase 5). -/
def execDiv (dst src : Byte) (s : State) : Host.Outcome State Fault Refusal :=
  withValidRegs [dst, src] s
    (if readReg s src = 0 then divideByZero src s else .next (aluResult aluDiv dst src s))

end Sys2Proof.Machine
end

