-- ==== Sys2Proof/Machine/Control.lean ====
section
/-! DEFINITION. The control family (R150): `HALT`, and the dispatch of a byte that is no opcode. -/

namespace Sys2Proof.Machine

/-- `HALT` (R151). It is allowed in both modes (R191), and `pc` stays after its byte. -/
def execHalt (s : State) : Host.Outcome State Fault Refusal := .next (haltNormally s)

/-- A byte that is no opcode (R82, R152): `UNKNOWN_OPCODE` with the byte's address and value. The byte
has been fetched, so its address is `pc - 1`. -/
def execUnknown (op : Byte) (s : State) : Host.Outcome State Fault Refusal :=
  .next (raiseFault .unknownOpcode (.opcode (s.pc - 1) op) s)

end Sys2Proof.Machine
end

