-- ==== Sys2Proof/Machine/LoadImmediate.lean ====
section
/-! DEFINITION. The load-immediate family (R100). A meaning here and in the other families starts
after the fetch: `pc` is already past the instruction's bytes (R84, phases 4 to 7). -/

namespace Sys2Proof.Machine

/-- `LOAD_IMM Rreg, #imm` (R101). -/
def execLoadImm (reg imm : Byte) (s : State) : Host.Outcome State Fault Refusal :=
  withValidRegs [reg] s (.next (writeReg s reg imm))

end Sys2Proof.Machine
end

