-- ==== Sys2Proof/Machine/LoadStore.lean ====
section
/-! DEFINITION. The memory family (R130): one byte between a register and the absolute address that
the instruction holds. The address is the effective address as it stands (R69). -/

namespace Sys2Proof.Machine

/-- `STORE Rreg, addr` (R131). -/
def execStore (reg : Byte) (addr : Addr) (s : State) : Host.Outcome State Fault Refusal :=
  withValidRegs [reg] s
    (match memWrite s addr (readReg s reg) with
    | .error reason => .next (raiseFault .dataWriteDenied (.denied addr reason) s)
    | .ok t => .next t)

/-- `LOAD_MEM Rreg, addr` (R132). -/
def execLoadMem (reg : Byte) (addr : Addr) (s : State) : Host.Outcome State Fault Refusal :=
  withValidRegs [reg] s
    (match memRead s addr with
    | .error reason => .next (raiseFault .dataReadDenied (.denied addr reason) s)
    | .ok b => .next (writeReg s reg b))

end Sys2Proof.Machine
end

