-- ==== Sys2Proof/Machine/Dispatch.lean ====
section
/-! DEFINITION. The dispatch of R82: one arm per constructor of `Instr`, each one call of a meaning. -/

namespace Sys2Proof.Machine

def exec (i : Instr) (s : State) : Host.Outcome State Fault Refusal :=
  match i with
  | .loadImm reg imm => Sys2Proof.Machine.execLoadImm reg imm s
  | .add dst src => Sys2Proof.Machine.execAdd dst src s
  | .sub dst src => Sys2Proof.Machine.execSub dst src s
  | .mlp dst src => Sys2Proof.Machine.execMlp dst src s
  | .div dst src => Sys2Proof.Machine.execDiv dst src s
  | .store reg addr => Sys2Proof.Machine.execStore reg addr s
  | .loadMem reg addr => Sys2Proof.Machine.execLoadMem reg addr s
  | .halt => Sys2Proof.Machine.execHalt s
  | .unknown op => Sys2Proof.Machine.execUnknown op s

end Sys2Proof.Machine
end

