-- ==== Sys2Proof/Machine/Start.lean ====
section
/-! DEFINITION. What the host does: it starts a run (R200, R201), writing the program image into `M`
without the gate. -/

namespace Sys2Proof.Machine

/-- The bytes `img` at `a`, `a + 1`, ... of the array, written directly (R201). -/
def loadBytes (m : Memory) (a : Nat) (img : List Byte) : Memory :=
  match img with
  | [] => m
  | b :: rest => loadBytes (m.write a b) (a + 1) rest

/-- `Start(img, n, org, ENTRY, PRIV_MODE)` of R200 under the configuration `c`. `none` is the refusal of
an image that would extend past the array: no run starts. -/
def start (c : Config) (img : List Byte) (org entry : Addr) (privMode : Bool) : Option State :=
  if c.memSize < org.toNat + img.length then none
  else some
    { cfg := c
      regs := List.replicate c.nRegs 0
      pc := entry
      running := true
      priv := privMode
      haltReason := .none
      faultInfo := none
      mem := loadBytes [] org.toNat img
      events := [] }

/-- The addresses of `n` bytes from `a` on, wrapping at 2^16 (R28, R77). -/
def addrsFrom (a : Addr) (n : Nat) : List Addr :=
  (List.range n).map fun k => a + BitVec.ofNat 16 k

/-- Bytes placed at given addresses of the array, those that lie inside it. -/
def placeBytes (c : Config) (m : Memory) (cells : List (Addr × Byte)) : Memory :=
  match cells with
  | [] => m
  | (a, b) :: rest =>
    placeBytes c (if a.toNat < c.memSize then m.write a.toNat b else m) rest

/-- The bytes of one instruction stored where the next fetch reads, in a run that is going on. The mode
becomes privileged only where the gate would otherwise deny one of the bytes (log entry 4). -/
def placeInstr (bytes : List Byte) (s : State) : State :=
  { s with
    mem := placeBytes s.cfg s.mem ((addrsFrom s.pc bytes.length).zip bytes)
    running := true
    priv := s.priv || !(addrsFrom s.pc bytes.length).all fun a => allowed s.cfg a false
    haltReason := .none
    faultInfo := none
    events := if s.running then s.events else [] }

end Sys2Proof.Machine
end

