-- ==== Sys2Proof/Machine/Step.lean ====
section
/-! DEFINITION. One step of the engine (R82, R83), and the host's way to place the next instruction. -/

namespace Sys2Proof.Machine

/-- `Step()` of R82: one instruction from its opcode fetch to its completion or its fault. A fault of
the spec is a next state that is Halted. A halted engine has no step (R83). -/
def step (s : State) : Host.Outcome State Fault Refusal :=
  if s.running then
    match fetchInstr s with
    | .error h => .next h
    | .ok (i, t) => exec i t
  else .fault .halted

/-- `s` with the opcode-table word `w` stored at `pc`, so that the next step fetches and runs it. -/
def State.withFetchWord (s : State) (nbits w : Nat) : State :=
  placeInstr (tableBytes nbits w) s

end Sys2Proof.Machine
end

