-- ==== Sys2Proof/Safety.lean ====
section
/-! DEFINITION. The words the claims are stated in: the invariant of a run's states, what stands in
memory at an address, what an instruction leaves unchanged, how a run ends, and when two states differ
only where they may. -/

namespace Sys2Proof.Machine

/-! ### The invariant -/

/-- The events of a run that has the given halt reason: one per fault, so one at most (R183, R193). -/
def eventsOf (r : HaltReason) (info : Option FaultInfo) : List Event :=
  if r.isFault then [faultEvent r info] else []

/-- What every state of a run satisfies. In order: the configuration meets its constraints (R10, R11);
there are `N_REGS` registers (R20); memory is in canonical form and lies below `MEM_SIZE` (R35);
`halt_reason` is `NONE` exactly while Running (R32); `fault_info` is what the halt reason records
(R181); the events are those of the fault, if there was one (R193). -/
abbrev State.Inv (s : State) : Prop :=
  s.cfg.Valid ∧
  s.regs.length = s.cfg.nRegs ∧
  s.mem.wf ∧
  (∀ c ∈ s.mem, c.1 < s.cfg.memSize) ∧
  (s.running = true ↔ s.haltReason = .none) ∧
  s.haltReason.fits s.faultInfo = true ∧
  s.events = eventsOf s.haltReason s.faultInfo

/-- The only normal end of a run (R154): every other halt reason is a fault. -/
abbrev State.NormalEnd (s : State) : Prop :=
  s.running = false ∧ s.haltReason = .haltInstr

/-! ### What stands in memory -/

/-- The `n` bytes of the array from `a` on, wrapping at 2^16 (R28), with no gate. -/
def State.bytesAt (s : State) (a : Addr) (n : Nat) : List Byte :=
  (addrsFrom a n).map fun b => s.mem.read b.toNat

/-- The gate allows each of the `n` bytes from `a` on in the state's mode. -/
def State.fetchable (s : State) (a : Addr) (n : Nat) : Bool :=
  (addrsFrom a n).all fun b => allowed s.cfg b s.priv

/-- The next instruction: the bytes at `pc` decode to `i`, and the gate allows them all. -/
abbrev State.AboutToRun (s : State) (i : Instr) : Prop :=
  s.running = true ∧
  s.fetchable s.pc i.length = true ∧
  decode s.cfg.opcode (s.bytesAt s.pc i.length) = .ok (i, [])

/-- The gate denies an access at `a` in the state's mode, and records this reason: `OUT_OF_BOUNDS` where
the address is past the array, whatever the mode, else `PRIVILEGE` (R42, R45). -/
abbrev State.Denies (s : State) (a : Addr) (reason : DenyReason) : Prop :=
  (reason = .outOfBounds ∧ s.cfg.memSize ≤ a.toNat) ∨
  (reason = .privilege ∧ a.toNat < s.cfg.memSize ∧ s.priv = false ∧
    a.toNat ≤ s.cfg.privEnd.toNat)

/-- Byte `k` is one of those the instruction at `pc` is fetched from: the opcode byte, or an operand byte
of a known opcode (R81, R93). -/
abbrev State.FetchesByte (s : State) (k : Nat) : Prop :=
  k = 0 ∨ ∃ m, decodeOpcode s.cfg.opcode (s.mem.read s.pc.toNat) = some m ∧ k < m.length

/-! ### Frames -/

/-- Every byte of memory reads as before. -/
abbrev SameMemory (s t : State) : Prop := ∀ a : Nat, t.mem.read a = s.mem.read a

/-- Every byte of memory but the one at `a` reads as before. -/
abbrev SameMemoryBut (a : Addr) (s t : State) : Prop :=
  ∀ b : Nat, b ≠ a.toNat → t.mem.read b = s.mem.read b

/-- Every register but `d` reads as before, and there are as many. -/
abbrev SameRegsBut (d : Byte) (s t : State) : Prop :=
  t.regs.length = s.regs.length ∧ ∀ r : Byte, r ≠ d → readReg t r = readReg s r

/-- The configuration, `pc` and everything of status and output is as before. -/
abbrev SameControl (s t : State) : Prop :=
  t.cfg = s.cfg ∧ t.pc = s.pc ∧ t.running = s.running ∧ t.priv = s.priv ∧
  t.haltReason = s.haltReason ∧ t.faultInfo = s.faultInfo ∧ t.events = s.events

/-- `t` is `s` halted by the fault `cause` with `info`, with one event of the given severity appended
(R15, R193): no register, no memory byte and no mode has changed. Where `pc` stands is not said here. -/
abbrev FaultedWith (cause : HaltReason) (info : FaultInfo) (severity : Severity) (s t : State) : Prop :=
  t.running = false ∧ t.haltReason = cause ∧ t.faultInfo = some info ∧
  t.events = s.events ++ [Event.mk severity cause (some info)] ∧
  t.regs = s.regs ∧ SameMemory s t ∧ t.cfg = s.cfg ∧ t.priv = s.priv

/-- The severity R193 gives a denial's event. -/
def denialSeverity : DenyReason → Severity
  | .outOfBounds => .error
  | .privilege => .unauthorizedAccess

/-! ### Relations between two runs -/

/-- `s` in the given mode. -/
def State.withPriv (s : State) (p : Bool) : State := { s with priv := p }

/-- `s` with the given event list. -/
def State.withEvents (s : State) (evs : List Event) : State := { s with events := evs }

/-- Both outcomes are of one kind: next states related by `R`, the same fault, or the same refusal. -/
def RelatedOutcome (R : State → State → Prop)
    (x y : Host.Outcome State Fault Refusal) : Prop :=
  match x, y with
  | .next t, .next u => R t u
  | .fault f, .fault g => f = g
  | .refused r, .refused q => r = q
  | _, _ => False

/-- The states differ, if at all, in the bytes of the privileged region `[0, PRIV_END]`. -/
abbrev SameButPrivileged (s u : State) : Prop :=
  u.cfg = s.cfg ∧ u.regs = s.regs ∧ u.pc = s.pc ∧ u.running = s.running ∧ u.priv = s.priv ∧
  u.haltReason = s.haltReason ∧ u.faultInfo = s.faultInfo ∧ u.events = s.events ∧
  ∀ a : Nat, s.cfg.privEnd.toNat < a → u.mem.read a = s.mem.read a

/-- The states differ, if at all, in their event lists, whose additions since `s` and `u` agree. -/
abbrev SameButEvents (s u t v : State) : Prop :=
  v = t.withEvents v.events ∧
  ∃ new : List Event, t.events = s.events ++ new ∧ v.events = u.events ++ new

/-- `k` steps, stopping at the first fault or refusal (R88: the block itself has no step limit). -/
def runSteps (k : Nat) (s : State) : Host.Outcome State Fault Refusal :=
  match k with
  | 0 => .next s
  | k + 1 =>
    match step s with
    | .next t => runSteps k t
    | .fault r => .fault r
    | .refused r => .refused r

end Sys2Proof.Machine
end

