-- ==== Sys2Proof/Certificates/Slice0/Obligations.lean ====
section
/-! DEFINITION. The statements for the provers. Each docstring names the rules of spec/ that its
statement formalises or rests on. Frames use the words of Safety.lean. -/

open Sys2Proof Sys2Proof.Machine

/-! ### Start and reset -/

/-- Every piece of state has a stated value after the start (R202, R37), for every configuration, image,
origin, entry and mode: registers 0, `pc` at `ENTRY`, Running, the mode `PRIV_MODE`, memory zero but for the
image. Three clauses rest on the spec's own decisions. That `halt_reason` is `NONE` and `fault_info` is none
is D5 (log entry 10). That there is an event list, empty at the start, is D16 (R193, log entry 13). That every
image that fits gives a run, written without the gate, is D8 (R200, R201, log entry 16). -/
def Obligations.StartGivesEveryFieldItsValue : Prop :=
  ∀ (c : Config) (img : List Byte) (org entry : Addr) (privMode : Bool),
    org.toNat + img.length ≤ c.memSize →
    ∃ s, start c img org entry privMode = some s ∧
      s.cfg = c ∧ s.regs.length = c.nRegs ∧ (∀ i : Byte, readReg s i = 0) ∧
      s.pc = entry ∧ s.running = true ∧ s.priv = privMode ∧
      s.haltReason = .none ∧ s.faultInfo = none ∧ s.events = [] ∧
      (∀ k b, img[k]? = some b → s.mem.read (org.toNat + k) = b) ∧
      (∀ a, a < org.toNat ∨ org.toNat + img.length ≤ a → s.mem.read a = 0)

/-- The refusal of R200 and R201, which is the spec's own decision D8 (log entry 16): an image that would
extend past the array starts no run. -/
def Obligations.OversizedImageStartsNoRun : Prop :=
  ∀ (c : Config) (img : List Byte) (org entry : Addr) (privMode : Bool),
    c.memSize < org.toNat + img.length → start c img org entry privMode = none

/-- The reset state is the start of an empty image under the default configuration (R10, R11, R200). That
the entry is 0x0000 and the mode privileged is the model's choice: log entries 2 and 3. The defaults of
`DIV_ZERO_POLICY` and `FAULT_PC_ADVANCE` are the spec's own decisions D2 and D4 (log entries 7 and 9). -/
def Obligations.ResetIsTheDefaultStart : Prop :=
  start Config.default [] 0x0000 0x0000 true = some State.reset ∧
  State.reset.regs = [0, 0, 0, 0, 0, 0, 0, 0] ∧ State.reset.mem = [] ∧
  State.reset.cfg.nRegs = 8 ∧ State.reset.cfg.memSize = 65536 ∧
  State.reset.cfg.privEnd = 0x2000 ∧ State.reset.cfg.divZeroPolicy = .fault ∧
  State.reset.cfg.faultPcAdvance = false

/-- The reset state satisfies the invariant of Safety.lean. -/
def Obligations.ResetMeetsTheInvariant : Prop := State.reset.Inv

/-- Every start of a run under a configuration within the constraints of R10 and R11 satisfies it. -/
def Obligations.EveryStartMeetsTheInvariant : Prop :=
  ∀ (c : Config) (img : List Byte) (org entry : Addr) (privMode : Bool) (s : State),
    c.Valid → start c img org entry privMode = some s → s.Inv

/-- Every step keeps the invariant: the number of registers (R20), memory's canonical form below
`MEM_SIZE` (R35), `halt_reason` `NONE` exactly while Running (R32), `fault_info` as the cause records it
(R181), and one event for a fault (R193). What `halt_reason` and `fault_info` record is the spec's own
decision D5 (log entry 10), and the event clause is its decision D16 (log entry 13). -/
def Obligations.EveryStepKeepsTheInvariant : Prop :=
  ∀ s t : State, s.Inv → step s = .next t → t.Inv

/-! ### Encoding -/

/-- Decoding an encoded instruction gives it back, with every operand at every value, under every
injective `OPCODE`, whatever bytes follow. -/
def Obligations.DecodeOfEncodeIsTheInstruction : Prop :=
  ∀ (o : OpcodeMap) (i : Instr) (rest : List Byte),
    o.Injective → i.wellFormed o = true → decode o (encode o i ++ rest) = .ok (i, rest)

/-- The other direction: what is decoded is well-formed, and encoding it gives the bytes read. So each
byte sequence has one meaning. -/
def Obligations.EncodeOfDecodeIsTheBytes : Prop :=
  ∀ (o : OpcodeMap) (bytes rest : List Byte) (i : Instr),
    decode o bytes = .ok (i, rest) → i.wellFormed o = true ∧ encode o i ++ rest = bytes

/-- The decoder of R71 answers a mnemonic exactly for its own opcode byte, and `Unknown` exactly for
the bytes of none. -/
def Obligations.OpcodeByteDecidesTheMnemonic : Prop :=
  ∀ (o : OpcodeMap) (op : Byte), o.Injective →
    (∀ m, decodeOpcode o op = some m ↔ o.get m = op) ∧
    (decodeOpcode o op = none ↔ ∀ m, o.get m ≠ op)

/-- R61: the format and the length of each instruction. -/
def Obligations.LengthsAreThoseOfTheTable : Prop :=
  Mnemonic.all.map Mnemonic.format = [.ri, .rr, .rr, .rr, .rr, .ra, .ra, .n] ∧
  ∀ (o : OpcodeMap) (a b : Byte) (addr : Addr),
    (encode o (.loadImm a b)).length = 3 ∧ (encode o (.add a b)).length = 3 ∧
    (encode o (.sub a b)).length = 3 ∧ (encode o (.mlp a b)).length = 3 ∧
    (encode o (.div a b)).length = 3 ∧ (encode o (.store a addr)).length = 4 ∧
    (encode o (.loadMem a addr)).length = 4 ∧ (encode o .halt).length = 1

/-- R133: the address operand is read high byte first and composed as `hi * 256 + lo`. -/
def Obligations.AddressOperandIsBigEndian : Prop :=
  ∀ (o : OpcodeMap) (reg hi lo : Byte), o.Injective →
    ∃ addr : Addr, addr.toNat = hi.toNat * 256 + lo.toNat ∧
      decode o [o.store, reg, hi, lo] = .ok (.store reg addr, []) ∧
      decode o [o.loadMem, reg, hi, lo] = .ok (.loadMem reg addr, [])

/-- Words written out from R61 to R70 decode to what they stand for under the default `OPCODE`, whose byte
values are the spec's own decision D1 (log entry 6). The last clause is the model's own: the spec gives no
decoder over a list of bytes, and that a list too short for its instruction is the error `truncated` is
log entry 11 (DEDUCED). -/
def Obligations.WrittenOutWordsDecode : Prop :=
  decode Config.default.opcode [0x01, 0x00, 0x05] = .ok (.loadImm 0 5, []) ∧
  decode Config.default.opcode [0x02, 0x00, 0x01] = .ok (.add 0 1, []) ∧
  decode Config.default.opcode [0x05, 0x03, 0x07] = .ok (.div 3 7, []) ∧
  decode Config.default.opcode [0x06, 0x01, 0x12, 0x34] = .ok (.store 1 0x1234, []) ∧
  decode Config.default.opcode [0x08, 0xAA] = .ok (.halt, [0xAA]) ∧
  decode Config.default.opcode [0x00] = .ok (.unknown 0x00, []) ∧
  decode Config.default.opcode [0x07, 0x00] = .error (.truncated .loadMem)

/-! ### The step -/

/-- When the bytes at `pc` decode to an instruction and the gate allows them all, a running engine's step
is that instruction's effect, with `pc` moved past its bytes (R26, R82). -/
def Obligations.StepRunsTheInstructionAtPc : Prop :=
  ∀ (s : State) (i : Instr),
    s.running = true → s.fetchable s.pc i.length = true →
    decode s.cfg.opcode (s.bytesAt s.pc i.length) = .ok (i, []) →
    step s = exec i (advance i.length s) ∧
      advance i.length s = { s with pc := s.pc + BitVec.ofNat 16 i.length }

/-- R83: a halted engine has no step. -/
def Obligations.HaltedEngineHasNoStep : Prop :=
  ∀ s : State, s.running = false → step s = .fault .halted

/-- A fetch denied on byte `k` of an instruction, the opcode byte or any operand byte, ends the step in
`FETCH_DENIED` with that byte's address (R81, R84). Three clauses rest on the spec's own decisions: where
`pc` is left is the parameter of D4 (log entry 9); that `OUT_OF_BOUNDS` is the reason where both conditions
hold is D5 (R45, log entry 10); the one event and its severity are D16 (R193, log entry 13). -/
def Obligations.DeniedFetchHaltsAtTheDeniedByte : Prop :=
  ∀ (s : State) (k : Nat) (reason : DenyReason),
    s.running = true → s.FetchesByte k → s.fetchable s.pc k = true →
    s.Denies (s.pc + BitVec.ofNat 16 k) reason →
    ∃ t, step s = .next t ∧
      FaultedWith .fetchDenied (.denied (s.pc + BitVec.ofNat 16 k) reason)
        (denialSeverity reason) s t ∧
      t.pc = s.pc + BitVec.ofNat 16 (if s.cfg.faultPcAdvance then k + 1 else k)

/-- R152: a byte that is no opcode ends the step in `UNKNOWN_OPCODE` with the byte's own address and
value. No operand byte is fetched: `pc` is left one byte on. The one event, of severity `error`, is the
spec's own decision D16 (R193, log entry 13). -/
def Obligations.UnknownOpcodeByteHaltsTheEngine : Prop :=
  ∀ s : State, s.running = true → allowed s.cfg s.pc s.priv = true →
    (∀ m, s.cfg.opcode.get m ≠ s.mem.read s.pc.toNat) →
    ∃ t, step s = .next t ∧
      FaultedWith .unknownOpcode (.opcode s.pc (s.mem.read s.pc.toNat)) .error s t ∧
      t.pc = s.pc + 1

/-- The effect of the row `unknown_opcode` itself, after its byte has been fetched (R82, R152). That the row
is a constructor, whose meaning raises the fault at `pc - 1`, is log entry 11 (DEDUCED). The one event, of
severity `error`, is the spec's own decision D16 (R193, log entry 13). -/
def Obligations.UnknownOpcodeRaisesItsFault : Prop :=
  ∀ (s : State) (op : Byte),
    ∃ t, exec (.unknown op) s = .next t ∧
      FaultedWith .unknownOpcode (.opcode (s.pc - 1) op) .error s t ∧ t.pc = s.pc

/-- The whole of the pc table R87, an inference the spec marks as its own: an instruction that was
fetched leaves `pc` after its bytes, however it ends; a denied fetch leaves it at the denied byte, or one
on, by the parameter of the spec's own decision D4 (log entry 9). `pc` wraps by decision D3 (log entry 8). -/
def Obligations.PcAfterAStepIsThatOfTheTable : Prop :=
  ∀ s t : State, step s = .next t →
    (∃ i, s.AboutToRun i ∧ t.pc = s.pc + BitVec.ofNat 16 i.length) ∨
    (∃ k, k < 4 ∧ t.haltReason = .fetchDenied ∧
      s.fetchable s.pc k = true ∧ s.fetchable s.pc (k + 1) = false ∧
      t.pc = s.pc + BitVec.ofNat 16 (if s.cfg.faultPcAdvance then k + 1 else k))

/-! ### The gate -/

/-- R42 and R43: a read answers the byte exactly where the gate allows the access. A read answers no new
state, so it changes none. With the default parameters the first unrestricted address is 0x2001. -/
def Obligations.ReadsGoThroughTheGate : Prop :=
  (∀ (s : State) (a : Addr),
    ((a.toNat < s.cfg.memSize ∧ (s.priv = true ∨ s.cfg.privEnd.toNat < a.toNat)) →
      memRead s a = .ok (s.mem.read a.toNat)) ∧
    (¬(a.toNat < s.cfg.memSize ∧ (s.priv = true ∨ s.cfg.privEnd.toNat < a.toNat)) →
      ∃ reason, memRead s a = .error reason)) ∧
  (∀ a : Addr, allowed Config.default a false = true ↔ 0x2001 ≤ a.toNat) ∧
  (∀ a : Addr, allowed Config.default a true = true)

/-- R44: an allowed write changes exactly the byte it addresses; a denied one answers no new state. -/
def Obligations.WritesGoThroughTheGate : Prop :=
  ∀ (s : State) (a : Addr) (v : Byte), s.Inv →
    ((a.toNat < s.cfg.memSize ∧ (s.priv = true ∨ s.cfg.privEnd.toNat < a.toNat)) →
      ∃ t, memWrite s a v = .ok t ∧ t.mem.read a.toNat = v ∧ SameMemoryBut a s t ∧
        t.regs = s.regs ∧ SameControl s t) ∧
    (¬(a.toNat < s.cfg.memSize ∧ (s.priv = true ∨ s.cfg.privEnd.toNat < a.toNat)) →
      ∃ reason, memWrite s a v = .error reason)

/-- What a denial records (R45; that `OUT_OF_BOUNDS` wins where both conditions hold is the spec's own
decision D5, log entry 10). -/
def Obligations.DenialsRecordTheirReason : Prop :=
  ∀ (s : State) (a : Addr) (v : Byte) (reason : DenyReason),
    (s.Denies a reason ↔ memRead s a = .error reason) ∧
    (s.Denies a reason ↔ memWrite s a v = .error reason)

/-- R57, on the spec's own decision D7 (log entry 15): an allowed `STORE` is seen by every fetch of that
address that follows it, the next instruction's first byte among them. -/
def Obligations.StoreIsSeenByTheNextFetch : Prop :=
  ∀ (s : State) (reg : Byte) (a : Addr), s.Inv → reg.toNat < s.cfg.nRegs →
    allowed s.cfg a s.priv = true →
    ∃ t, exec (.store reg a) s = .next t ∧
      fetch8 { t with pc := a } = .ok (readReg s reg, { t with pc := a + 1 })

/-! ### Instructions: result, frame and completion -/

/-- `LOAD_IMM` (R101) writes the immediate, and nothing else. -/
def Obligations.LoadImmWritesTheImmediate : Prop :=
  ∀ (s : State) (reg imm : Byte), s.Inv → reg.toNat < s.cfg.nRegs →
    ∃ t, exec (.loadImm reg imm) s = .next t ∧ readReg t reg = imm ∧
      SameRegsBut reg s t ∧ SameMemory s t ∧ SameControl s t

/-- `ADD` (R112) writes the sum modulo 256 to `dst`, and nothing else. -/
def Obligations.AddWritesTheSumModulo256 : Prop :=
  ∀ (s : State) (dst src : Byte), s.Inv → dst.toNat < s.cfg.nRegs → src.toNat < s.cfg.nRegs →
    ∃ t, exec (.add dst src) s = .next t ∧
      (readReg t dst).toNat = ((readReg s dst).toNat + (readReg s src).toNat) % 256 ∧
      SameRegsBut dst s t ∧ SameMemory s t ∧ SameControl s t

/-- `SUB` (R113) writes `dst - src` modulo 256 to `dst`, and nothing else. -/
def Obligations.SubWritesTheDifferenceModulo256 : Prop :=
  ∀ (s : State) (dst src : Byte), s.Inv → dst.toNat < s.cfg.nRegs → src.toNat < s.cfg.nRegs →
    ∃ t, exec (.sub dst src) s = .next t ∧
      ((readReg t dst).toNat : Int) =
        ((readReg s dst).toNat - (readReg s src).toNat : Int) % 256 ∧
      SameRegsBut dst s t ∧ SameMemory s t ∧ SameControl s t

/-- `MLP` (R114) writes the low 8 bits of the product to `dst`, and nothing else. -/
def Obligations.MlpWritesTheProductModulo256 : Prop :=
  ∀ (s : State) (dst src : Byte), s.Inv → dst.toNat < s.cfg.nRegs → src.toNat < s.cfg.nRegs →
    ∃ t, exec (.mlp dst src) s = .next t ∧
      (readReg t dst).toNat = ((readReg s dst).toNat * (readReg s src).toNat) % 256 ∧
      SameRegsBut dst s t ∧ SameMemory s t ∧ SameControl s t

/-- `DIV` (R115) with a divisor other than 0 writes the quotient, and nothing else: the one number `q` with
`q * src ≤ dst < (q + 1) * src`. That it is unsigned is the spec's own decision D2 (log entry 7). -/
def Obligations.DivWritesTheUnsignedQuotient : Prop :=
  ∀ (s : State) (dst src : Byte), s.Inv → dst.toNat < s.cfg.nRegs → src.toNat < s.cfg.nRegs →
    readReg s src ≠ 0 →
    ∃ t, exec (.div dst src) s = .next t ∧
      (readReg t dst).toNat * (readReg s src).toNat ≤ (readReg s dst).toNat ∧
      (readReg s dst).toNat < ((readReg t dst).toNat + 1) * (readReg s src).toNat ∧
      SameRegsBut dst s t ∧ SameMemory s t ∧ SameControl s t

/-- `DIV` by 0 under each value of `DIV_ZERO_POLICY` (R118, the spec's own decision D2, log entry 7): a
fault that writes no register, or a refusal. The fault's one event, of severity `error`, is the spec's own
decision D16 (R193, log entry 13). -/
def Obligations.DivByZeroFollowsThePolicy : Prop :=
  ∀ (s : State) (dst src : Byte), dst.toNat < s.cfg.nRegs → src.toNat < s.cfg.nRegs →
    readReg s src = 0 →
    (s.cfg.divZeroPolicy = .fault →
      ∃ t, exec (.div dst src) s = .next t ∧
        FaultedWith .divByZero (.index src) .error s t ∧ t.pc = s.pc) ∧
    (s.cfg.divZeroPolicy = .undefined → exec (.div dst src) s = .refused .divByZeroUndefined)

/-- One register as both operands (R120, an inference the spec marks as its own): `2a mod 256`, 0,
`a² mod 256`, and 1 where `a` is not 0. The last holds for the unsigned `DIV` of decision D2 (log entry 7). -/
def Obligations.SameRegisterArithmetic : Prop :=
  ∀ (s : State) (r : Byte), s.Inv → r.toNat < s.cfg.nRegs →
    (∃ t, exec (.add r r) s = .next t ∧
      (readReg t r).toNat = (2 * (readReg s r).toNat) % 256) ∧
    (∃ t, exec (.sub r r) s = .next t ∧ readReg t r = 0) ∧
    (∃ t, exec (.mlp r r) s = .next t ∧ (readReg t r).toNat = (readReg s r).toNat ^ 2 % 256) ∧
    (readReg s r ≠ 0 → ∃ t, exec (.div r r) s = .next t ∧ readReg t r = 1)

/-- `STORE` (R131) where the gate allows the address: that byte takes the register's value, and nothing
else changes. -/
def Obligations.StoreWritesTheOneByte : Prop :=
  ∀ (s : State) (reg : Byte) (addr : Addr), s.Inv → reg.toNat < s.cfg.nRegs →
    allowed s.cfg addr s.priv = true →
    ∃ t, exec (.store reg addr) s = .next t ∧ t.mem.read addr.toNat = readReg s reg ∧
      SameMemoryBut addr s t ∧ t.regs = s.regs ∧ SameControl s t

/-- `STORE` where the gate denies the address (R131): `DATA_WRITE_DENIED`, and memory is as it was. That
`OUT_OF_BOUNDS` is the reason where both conditions hold is the spec's own decision D5 (R45, log entry 10);
the one event and its severity are its decision D16 (R193, log entry 13). -/
def Obligations.DeniedStoreHaltsTheEngine : Prop :=
  ∀ (s : State) (reg : Byte) (addr : Addr) (reason : DenyReason), reg.toNat < s.cfg.nRegs →
    s.Denies addr reason →
    ∃ t, exec (.store reg addr) s = .next t ∧
      FaultedWith .dataWriteDenied (.denied addr reason) (denialSeverity reason) s t ∧ t.pc = s.pc

/-- `LOAD_MEM` (R132) where the gate allows the address: the register takes that byte, and nothing else
changes. -/
def Obligations.LoadMemReadsTheOneByte : Prop :=
  ∀ (s : State) (reg : Byte) (addr : Addr), s.Inv → reg.toNat < s.cfg.nRegs →
    allowed s.cfg addr s.priv = true →
    ∃ t, exec (.loadMem reg addr) s = .next t ∧ readReg t reg = s.mem.read addr.toNat ∧
      SameRegsBut reg s t ∧ SameMemory s t ∧ SameControl s t

/-- `LOAD_MEM` where the gate denies the address (R132): `DATA_READ_DENIED`, and no register changes. That
`OUT_OF_BOUNDS` is the reason where both conditions hold is the spec's own decision D5 (R45, log entry 10);
the one event and its severity are its decision D16 (R193, log entry 13). -/
def Obligations.DeniedLoadHaltsTheEngine : Prop :=
  ∀ (s : State) (reg : Byte) (addr : Addr) (reason : DenyReason), reg.toNat < s.cfg.nRegs →
    s.Denies addr reason →
    ∃ t, exec (.loadMem reg addr) s = .next t ∧
      FaultedWith .dataReadDenied (.denied addr reason) (denialSeverity reason) s t ∧ t.pc = s.pc

/-- `HALT` (R151) halts the engine in either mode with `HALT_INSTR`. No register, memory byte, fault
information or event changes, and `pc` stays. -/
def Obligations.HaltEndsTheRunNormally : Prop :=
  ∀ s : State,
    ∃ t, exec .halt s = .next t ∧ t.running = false ∧ t.haltReason = .haltInstr ∧
      t.cfg = s.cfg ∧ t.regs = s.regs ∧ SameMemory s t ∧ t.pc = s.pc ∧ t.priv = s.priv ∧
      t.faultInfo = s.faultInfo ∧ t.events = s.events

/-- A register field at or above `N_REGS`, in any instruction that has one, raises `INVALID_REGISTER`
with the first such field in offset order, before any other check of the instruction (R84, R85). The order
of two fields is the spec's own decision D20 (log entry 17). The one event, of severity `error`, is its
decision D16 (R193, log entry 13). -/
def Obligations.InvalidRegisterIsReportedFirst : Prop :=
  ∀ (s : State) (i : Instr) (valid later : List Byte) (f : Byte),
    i.regFields = valid ++ f :: later → (∀ g ∈ valid, g.toNat < s.cfg.nRegs) →
    s.cfg.nRegs ≤ f.toNat →
    ∃ t, exec i s = .next t ∧
      FaultedWith .invalidRegister (.index f) .error s t ∧ t.pc = s.pc

/-! ### Whole-machine rules -/

/-- R86, an inference the spec marks as its own: a step writes at most one thing. A `STORE` at `pc` changes
no byte but the one at its address operand, and no register. Any other instruction, and a denied fetch,
changes no byte. The register that an instruction may change is the first of its register fields. A step
that halts the engine, by `HALT` or by a fault, writes neither. -/
def Obligations.StepWritesAtMostOneThing : Prop :=
  ∀ s t : State, step s = .next t →
    (∀ reg addr, s.AboutToRun (.store reg addr) → SameMemoryBut addr s t ∧ t.regs = s.regs) ∧
    ((∀ reg addr, ¬ s.AboutToRun (.store reg addr)) → SameMemory s t) ∧
    (∀ i, s.AboutToRun i → ∀ r, i.regFields.head? ≠ some r → readReg t r = readReg s r) ∧
    ((∀ i, ¬ s.AboutToRun i) → t.regs = s.regs) ∧
    t.regs.length = s.regs.length ∧
    (t.running = false → t.regs = s.regs ∧ SameMemory s t)

/-- The mode is constant for the whole run (R31, R190), and so are the configuration (R80) and the number
of registers. -/
def Obligations.ModeAndConfigurationNeverChange : Prop :=
  ∀ (k : Nat) (s t : State), runSteps k s = .next t →
    t.priv = s.priv ∧ t.cfg = s.cfg ∧ t.regs.length = s.regs.length

/-- A run ends only by `HALT` or by a fault (R88): a step that leaves the engine Halted ran `HALT`, or
ended in a fault; and only `HALT` gives the normal end (R154). That `HALT` appends no event, and a fault the
one event that carries its record, is the spec's own decision D16 (R193, log entry 13). -/
def Obligations.OnlyHaltOrAFaultEndsARun : Prop :=
  ∀ s t : State, step s = .next t → t.running = false →
    (s.AboutToRun .halt ∧ t.NormalEnd ∧ t.events = s.events) ∨
    (¬ s.AboutToRun .halt ∧ t.haltReason.isFault = true ∧
      ∃ e : Event, e.reason = t.haltReason ∧ e.info = t.faultInfo ∧ t.events = s.events ++ [e])

/-- Every instruction executes the same way in both modes (R190): where the gate denies nothing to a
non-privileged step, the privileged one answers the same state but for the mode. A step that is refused (a
division by 0 where `DIV_ZERO_POLICY` is `undefined`) is refused with the same reason, and a halted engine
has no step in either mode. -/
def Obligations.ModesDifferOnlyInTheGate : Prop :=
  ∀ s : State, s.priv = false →
    (∀ t, step s = .next t →
      t.haltReason ≠ .fetchDenied → t.haltReason ≠ .dataReadDenied →
      t.haltReason ≠ .dataWriteDenied →
      step (s.withPriv true) = .next (t.withPriv true)) ∧
    (∀ r, step s = .refused r → step (s.withPriv true) = .refused r) ∧
    (∀ f, step s = .fault f → step (s.withPriv true) = .fault f)

/-- R193, on the spec's own decision D16 (log entry 13): no rule reads the events, and they are only appended
to. Two states that differ in their event lists alone step alike and append the same events. -/
def Obligations.EventsAreNeverRead : Prop :=
  ∀ (s : State) (evs : List Event),
    RelatedOutcome (SameButEvents s (s.withEvents evs)) (step s) (step (s.withEvents evs))

/-- The central invariant of R47, for what a run may learn: two non-privileged runs that differ in the
bytes of the privileged region alone go on alike, and differ in nothing else at any step. -/
def Obligations.NonPrivilegedRunsCannotReadThePrivilegedRegion : Prop :=
  ∀ (k : Nat) (s u : State), s.Inv → u.Inv → s.priv = false → SameButPrivileged s u →
    RelatedOutcome SameButPrivileged (runSteps k s) (runSteps k u)

/-- The central invariant of R47, for what a run may change: no byte of the privileged region. -/
def Obligations.NonPrivilegedRunsCannotChangeThePrivilegedRegion : Prop :=
  ∀ (k : Nat) (s t : State), s.priv = false → runSteps k s = .next t →
    ∀ a : Nat, a ≤ s.cfg.privEnd.toNat → t.mem.read a = s.mem.read a

/-- R89, an inference the spec marks as its own: every non-privileged run halts after at most
`65536 - (PRIV_END + 1)` completed instructions and one more step, or is refused where
`DIV_ZERO_POLICY` refuses a division. -/
def Obligations.EveryNonPrivilegedRunHalts : Prop :=
  ∀ s : State, s.running = true → s.priv = false →
    ∃ k, k ≤ 65536 - (s.cfg.privEnd.toNat + 1) ∧
      ((∃ t, runSteps (k + 1) s = .next t ∧ t.running = false) ∨
        (s.cfg.divZeroPolicy = .undefined ∧
          runSteps (k + 1) s = .refused .divByZeroUndefined))

/-- R90, an inference the spec marks as its own: a privileged run may go on forever. R90's own example is
no witness, since it halts (log entry 18). -/
def Obligations.SomePrivilegedRunNeverHalts : Prop :=
  ∃ s : State, s.Inv ∧ s.cfg = Config.default ∧ s.priv = true ∧
    ∀ k, ∃ t, runSteps k s = .next t ∧ t.running = true

/-- The numeric codes of the halt reasons (R181), which are the spec's own decision D5 (log entry 10). -/
def Obligations.HaltReasonCodes : Prop :=
  HaltReason.code .none = 0 ∧ HaltReason.code .haltInstr = 1 ∧
  HaltReason.code .fetchDenied = 2 ∧ HaltReason.code .unknownOpcode = 3 ∧
  HaltReason.code .invalidRegister = 4 ∧ HaltReason.code .dataReadDenied = 5 ∧
  HaltReason.code .dataWriteDenied = 6 ∧ HaltReason.code .divByZero = 7

/-- A non-privileged fetch that wraps past 0xFFFF is denied at 0x0000, whether the byte is an opcode or an
operand byte (R95, an inference the spec marks as its own; the wrap is its decision D3, log entry 8). That
the reason recorded is `PRIVILEGE` is R45 on decision D5 (log entry 10), and the one event, of severity
`unauthorized-access`, is decision D16 (R193, log entry 13). -/
def Obligations.WrappedNonPrivilegedFetchIsDenied : Prop :=
  ∀ s : State, s.Inv → s.priv = false → s.pc = 0xFFFF → allowed s.cfg s.pc s.priv = true →
    ∃ t u, fetch8 s = .ok (s.mem.read 0xFFFF, t) ∧ t.pc = 0x0000 ∧ fetch8 t = .error u ∧
      FaultedWith .fetchDenied (.denied 0x0000 .privilege) .unauthorizedAccess t u

/-- R89, an inference the spec marks as its own: `pc` rises with every non-privileged step that leaves
the engine Running, and the step began above `PRIV_END`. The one way down is the wrap from the last byte of
the address space to 0x0000 exactly (R27, decision D3, log entry 8), where the next fetch is denied (R95). -/
def Obligations.NonPrivilegedStepRaisesPc : Prop :=
  ∀ s t : State, s.priv = false → step s = .next t → t.running = true →
    s.cfg.privEnd.toNat < s.pc.toNat ∧ (s.pc.toNat < t.pc.toNat ∨ t.pc = 0x0000)
end

