-- ==== Sys2Proof/Laws/Decode.lean ====
section
/-! SUPPORT. The decoder's and the encoder's small laws. -/

namespace Sys2Proof

theorem OpcodeMap.get_injective {o : OpcodeMap} (h : o.Injective) {m n : Mnemonic}
    (e : o.get m = o.get n) : m = n := by
  simp only [OpcodeMap.Injective, Mnemonic.all, List.map_cons, List.map_nil, OpcodeMap.get,
    List.nodup_cons, List.mem_cons, List.not_mem_nil, not_or, or_false] at h
  cases m <;> cases n <;> simp_all [OpcodeMap.get]

/-- What the decoder answers: a mnemonic only for that mnemonic's byte. -/
theorem get_of_decodeOpcode {o : OpcodeMap} {op : Byte} {m : Mnemonic}
    (h : decodeOpcode o op = some m) : o.get m = op := by
  unfold decodeOpcode at h
  split_ifs at h <;> · cases h; simp [OpcodeMap.get, *]

/-- `Unknown` is the answer exactly when no mnemonic has the byte. -/
theorem decodeOpcode_eq_none_iff {o : OpcodeMap} {op : Byte} :
    decodeOpcode o op = none ↔ ∀ m, o.get m ≠ op := by
  constructor
  · intro h m e
    unfold decodeOpcode at h
    split_ifs at h
    cases m <;> simp_all [OpcodeMap.get]
  · intro h
    cases hd : decodeOpcode o op with
    | none => rfl
    | some m => exact absurd (get_of_decodeOpcode hd) (h m)

theorem decodeOpcode_get {o : OpcodeMap} (h : o.Injective) (m : Mnemonic) :
    decodeOpcode o (o.get m) = some m := by
  cases hd : decodeOpcode o (o.get m) with
  | none => exact absurd rfl (decodeOpcode_eq_none_iff.mp hd m)
  | some n => rw [OpcodeMap.get_injective h (get_of_decodeOpcode hd)]

theorem OpcodeMap.free_iff {o : OpcodeMap} {op : Byte} :
    o.free op = true ↔ ∀ m, o.get m ≠ op := by
  simp only [OpcodeMap.free, List.all_eq_true, bne_iff_ne]
  exact ⟨fun h m => h m (by cases m <;> simp [Mnemonic.all]), fun h m _ => h m⟩

/-- `hi ++ lo` is `hi * 256 + lo` (R12, R69). -/
theorem composeAddr_toNat (hi lo : Byte) :
    (composeAddr hi lo).toNat = hi.toNat * 256 + lo.toNat := by
  have h := lo.isLt
  rw [composeAddr, BitVec.toNat_append, ← Nat.shiftLeft_add_eq_or_of_lt h, Nat.shiftLeft_eq]

theorem addrHi_toNat (a : Addr) : (addrHi a).toNat = a.toNat / 256 := by
  have h := a.isLt
  simp only [addrHi, BitVec.extractLsb'_toNat, Nat.shiftRight_eq_div_pow]
  omega

theorem addrLo_toNat (a : Addr) : (addrLo a).toNat = a.toNat % 256 := by
  simp [addrLo, BitVec.extractLsb'_toNat]

@[simp] theorem composeAddr_addrHi_addrLo (a : Addr) : composeAddr (addrHi a) (addrLo a) = a := by
  apply BitVec.eq_of_toNat_eq
  rw [composeAddr_toNat, addrHi_toNat, addrLo_toNat]
  omega

@[simp] theorem addrHi_composeAddr (hi lo : Byte) : addrHi (composeAddr hi lo) = hi := by
  have h := lo.isLt
  apply BitVec.eq_of_toNat_eq
  rw [addrHi_toNat, composeAddr_toNat]
  omega

@[simp] theorem addrLo_composeAddr (hi lo : Byte) : addrLo (composeAddr hi lo) = lo := by
  have h := lo.isLt
  apply BitVec.eq_of_toNat_eq
  rw [addrLo_toNat, composeAddr_toNat]
  omega

/-! ### Lengths -/

theorem Mnemonic.length_eq (m : Mnemonic) : m.length = 1 + m.operandBytes := rfl

theorem Instr.length_pos (i : Instr) : 1 ≤ i.length := by
  cases i <;> simp [Instr.length, Instr.mnemonic, Mnemonic.length]

theorem Instr.length_le (i : Instr) : i.length ≤ maxLength := by
  cases i <;> simp [Instr.length, Instr.mnemonic, Mnemonic.length, Mnemonic.operandBytes,
    Mnemonic.format, Format.operandBytes, maxLength]

@[simp] theorem assembleBytes_mnemonic (m : Mnemonic) (bs : List Byte) :
    (assembleBytes m bs).mnemonic = some m := by
  cases m <;> rfl

@[simp] theorem assembleBytes_length (m : Mnemonic) (bs : List Byte) :
    (assembleBytes m bs).length = m.length := by
  simp [Instr.length]

/-- What the decoder answers on a list that is exactly one instruction long. -/
theorem decode_cons_exact {o : OpcodeMap} {op : Byte} {m : Mnemonic} {bs : List Byte}
    (h : decodeOpcode o op = some m) (hl : bs.length = m.operandBytes) :
    decode o (op :: bs) = .ok (assembleBytes m bs, []) := by
  simp [decode, h, ← hl]

theorem decode_cons_unknown {o : OpcodeMap} {op : Byte} (bs : List Byte)
    (h : decodeOpcode o op = none) : decode o (op :: bs) = .ok (.unknown op, bs) := by
  simp [decode, h]

/-- Everything the decoder can answer, when it answers an instruction. -/
theorem decode_cases {o : OpcodeMap} {bytes rest : List Byte} {i : Instr}
    (h : decode o bytes = .ok (i, rest)) :
    (∃ op, bytes = op :: rest ∧ decodeOpcode o op = none ∧ i = .unknown op) ∨
    (∃ op m bs, bytes = op :: (bs ++ rest) ∧ decodeOpcode o op = some m ∧
      bs.length = m.operandBytes ∧ i = assembleBytes m bs) := by
  cases bytes with
  | nil => simp [decode] at h
  | cons op tail =>
    cases hd : decodeOpcode o op with
    | none =>
      rw [decode_cons_unknown tail hd] at h
      cases h
      exact .inl ⟨op, rfl, hd, rfl⟩
    | some m =>
      simp only [decode, hd] at h
      split at h
      · cases h
      · cases h
        refine .inr ⟨op, m, tail.take m.operandBytes, by simp, hd, ?_, rfl⟩
        simp only [List.length_take]
        omega

end Sys2Proof
end

