-- ==== Sys2Proof/Laws/Memory.lean ====
section
/-! SUPPORT. The laws of the byte array and of the gate: read after write, every operation keeps the
canonical form, and what the gate's two accesses answer. -/

namespace Sys2Proof.Machine

@[simp] theorem Memory.read_nil (a : Nat) : Memory.read [] a = blankByte := rfl

theorem Memory.read_cons (b : Nat) (v : Byte) (m : Memory) (a : Nat) :
    Memory.read ((b, v) :: m) a = if a = b then v else Memory.read m a := rfl

/-- An address that is not listed reads as the blank byte. -/
theorem Memory.read_of_not_listed (m : Memory) (a : Nat) (h : ∀ c ∈ m, c.1 ≠ a) :
    Memory.read m a = blankByte := by
  induction m with
  | nil => rfl
  | cons c rest ih =>
    obtain ⟨b, v⟩ := c
    have hb : a ≠ b := fun e => h (b, v) (by simp) e.symm
    rw [Memory.read_cons, if_neg hb]
    exact ih fun c hc => h c (by simp [hc])

theorem Memory.read_entry_same (a : Nat) (v : Byte) (m : Memory) (h : ∀ c ∈ m, c.1 ≠ a) :
    Memory.read (Memory.entry a v m) a = v := by
  unfold Memory.entry
  split
  · rw [Memory.read_of_not_listed m a h]; simp [*]
  · simp [Memory.read_cons]

theorem Memory.read_entry_other (a b : Nat) (v : Byte) (m : Memory) (h : b ≠ a) :
    Memory.read (Memory.entry a v m) b = Memory.read m b := by
  unfold Memory.entry
  split
  · rfl
  · simp [Memory.read_cons, h]

/-- A write leaves every other address alone. -/
theorem Memory.read_write_other (m : Memory) (a b : Nat) (v : Byte) (h : b ≠ a) :
    Memory.read (Memory.write m a v) b = Memory.read m b := by
  induction m with
  | nil => exact Memory.read_entry_other a b v [] h
  | cons c rest ih =>
    obtain ⟨x, w⟩ := c
    unfold Memory.write
    split
    · exact Memory.read_entry_other a b v _ h
    · split
      · rename_i hax
        rw [Memory.read_entry_other a b v rest h, Memory.read_cons, if_neg (by omega)]
      · simp only [Memory.read_cons, ih]

theorem Memory.wf_tail {c : Host.Cell} {m : Memory} (h : Memory.wf (c :: m)) : Memory.wf m :=
  ⟨(List.pairwise_cons.mp h.1).2, fun d hd => h.2 d (by simp [hd])⟩

/-- In canonical form, a read after a write to the same address gives the value written. -/
theorem Memory.read_write_same (m : Memory) (a : Nat) (v : Byte) (h : m.wf) :
    Memory.read (Memory.write m a v) a = v := by
  induction m with
  | nil => exact Memory.read_entry_same a v [] (by simp)
  | cons c rest ih =>
    obtain ⟨x, w⟩ := c
    have hlt := (List.pairwise_cons.mp h.1).1
    unfold Memory.write
    split
    · refine Memory.read_entry_same a v _ fun d hd => ?_
      rcases List.mem_cons.mp hd with rfl | hd
      · simp only; omega
      · have := hlt d hd; omega
    · split
      · refine Memory.read_entry_same a v _ fun d hd => ?_
        have := hlt d hd; omega
      · rw [Memory.read_cons, if_neg (by assumption)]
        exact ih (Memory.wf_tail h)

theorem Memory.mem_entry {a : Nat} {v : Byte} {m : Memory} {c : Host.Cell}
    (h : c ∈ Memory.entry a v m) : c = (a, v) ∧ v ≠ blankByte ∨ c ∈ m := by
  unfold Memory.entry at h
  split at h
  · exact .inr h
  · rcases List.mem_cons.mp h with h | h
    · exact .inl ⟨h, by assumption⟩
    · exact .inr h

/-- What a write can list: the new entry, and what was listed before. -/
theorem Memory.mem_write {m : Memory} {a : Nat} {v : Byte} {c : Host.Cell}
    (h : c ∈ Memory.write m a v) : c = (a, v) ∧ v ≠ blankByte ∨ c ∈ m := by
  induction m with
  | nil => exact Memory.mem_entry h
  | cons d rest ih =>
    obtain ⟨x, w⟩ := d
    unfold Memory.write at h
    split at h
    · exact Memory.mem_entry h
    · split at h
      · exact (Memory.mem_entry h).imp_right fun h => by simp [h]
      · rcases List.mem_cons.mp h with h | h
        · exact .inr (by simp [h])
        · exact (ih h).imp_right fun h => by simp [h]

theorem Memory.wf_entry {a : Nat} {v : Byte} {m : Memory} (h : m.wf) (ha : ∀ c ∈ m, a < c.1) :
    (Memory.entry a v m).wf := by
  unfold Memory.entry
  split
  · exact h
  · refine ⟨List.pairwise_cons.mpr ⟨ha, h.1⟩, fun c hc => ?_⟩
    rcases List.mem_cons.mp hc with rfl | hc
    · assumption
    · exact h.2 c hc

/-- A write keeps the canonical form. -/
theorem Memory.wf_write (m : Memory) (a : Nat) (v : Byte) (h : m.wf) : (Memory.write m a v).wf := by
  induction m with
  | nil => exact Memory.wf_entry h (by simp)
  | cons d rest ih =>
    obtain ⟨x, w⟩ := d
    have hlt := (List.pairwise_cons.mp h.1).1
    unfold Memory.write
    split
    · refine Memory.wf_entry h fun c hc => ?_
      rcases List.mem_cons.mp hc with rfl | hc
      · assumption
      · have := hlt c hc; omega
    · split
      · refine Memory.wf_entry (Memory.wf_tail h) fun c hc => ?_
        have := hlt c hc; omega
      · have hr := ih (Memory.wf_tail h)
        refine ⟨List.pairwise_cons.mpr ⟨fun c hc => ?_, hr.1⟩, fun c hc => ?_⟩
        · rcases Memory.mem_write hc with ⟨rfl, -⟩ | hc
          · simp only; omega
          · exact hlt c hc
        · rcases List.mem_cons.mp hc with rfl | hc
          · exact h.2 _ (by simp)
          · exact hr.2 c hc

/-- A write below a bound lists nothing at or above it. -/
theorem Memory.write_lt {m : Memory} {a : Nat} {v : Byte} {n : Nat} (ha : a < n)
    (h : ∀ c ∈ m, c.1 < n) : ∀ c ∈ Memory.write m a v, c.1 < n := by
  intro c hc
  rcases Memory.mem_write hc with ⟨rfl, -⟩ | hc
  · exact ha
  · exact h c hc

/-! ### The gate -/

theorem allowed_iff (c : Config) (a : Addr) (p : Bool) :
    allowed c a p = true ↔ a.toNat < c.memSize ∧ (p = true ∨ c.privEnd.toNat < a.toNat) := by
  simp [allowed]

theorem memRead_of_allowed {s : State} {a : Addr} (h : allowed s.cfg a s.priv = true) :
    memRead s a = .ok (s.mem.read a.toNat) := by
  simp [memRead, h]

theorem memRead_of_denied {s : State} {a : Addr} (h : allowed s.cfg a s.priv = false) :
    memRead s a = .error (denyReason s.cfg a) := by
  simp [memRead, h]

theorem memWrite_of_allowed {s : State} {a : Addr} {v : Byte}
    (h : allowed s.cfg a s.priv = true) : memWrite s a v = .ok (storeByte s a v) := by
  simp [memWrite, h]

theorem memWrite_of_denied {s : State} {a : Addr} {v : Byte}
    (h : allowed s.cfg a s.priv = false) : memWrite s a v = .error (denyReason s.cfg a) := by
  simp [memWrite, h]

end Sys2Proof.Machine
end

