-- ==== Sys2Proof/Laws/State.lean ====
section
/-! SUPPORT. One lemma per field per update of the state, so that no later proof unfolds a record
update, and the small laws of the updates. -/

namespace Sys2Proof.Machine

/-! ### `advance` -/

@[simp] theorem advance_cfg (n : Nat) (s : State) : (advance n s).cfg = s.cfg := rfl
@[simp] theorem advance_regs (n : Nat) (s : State) : (advance n s).regs = s.regs := rfl
@[simp] theorem advance_pc (n : Nat) (s : State) :
    (advance n s).pc = s.pc + BitVec.ofNat 16 n := rfl
@[simp] theorem advance_running (n : Nat) (s : State) : (advance n s).running = s.running := rfl
@[simp] theorem advance_priv (n : Nat) (s : State) : (advance n s).priv = s.priv := rfl
@[simp] theorem advance_haltReason (n : Nat) (s : State) :
    (advance n s).haltReason = s.haltReason := rfl
@[simp] theorem advance_faultInfo (n : Nat) (s : State) :
    (advance n s).faultInfo = s.faultInfo := rfl
@[simp] theorem advance_mem (n : Nat) (s : State) : (advance n s).mem = s.mem := rfl
@[simp] theorem advance_events (n : Nat) (s : State) : (advance n s).events = s.events := rfl

@[simp] theorem advance_zero (s : State) : advance 0 s = s := by
  simp [advance]

theorem advance_advance (m n : Nat) (s : State) :
    advance m (advance n s) = advance (n + m) s := by
  simp only [advance, BitVec.ofNat_add, BitVec.add_assoc]

/-! ### `writeReg` -/

@[simp] theorem writeReg_cfg (s : State) (i v : Byte) : (writeReg s i v).cfg = s.cfg := rfl
@[simp] theorem writeReg_pc (s : State) (i v : Byte) : (writeReg s i v).pc = s.pc := rfl
@[simp] theorem writeReg_running (s : State) (i v : Byte) :
    (writeReg s i v).running = s.running := rfl
@[simp] theorem writeReg_priv (s : State) (i v : Byte) : (writeReg s i v).priv = s.priv := rfl
@[simp] theorem writeReg_haltReason (s : State) (i v : Byte) :
    (writeReg s i v).haltReason = s.haltReason := rfl
@[simp] theorem writeReg_faultInfo (s : State) (i v : Byte) :
    (writeReg s i v).faultInfo = s.faultInfo := rfl
@[simp] theorem writeReg_mem (s : State) (i v : Byte) : (writeReg s i v).mem = s.mem := rfl
@[simp] theorem writeReg_events (s : State) (i v : Byte) :
    (writeReg s i v).events = s.events := rfl

@[simp] theorem writeReg_regs_length (s : State) (i v : Byte) :
    (writeReg s i v).regs.length = s.regs.length := by
  simp [writeReg]

theorem readReg_writeReg_same (s : State) (i v : Byte) (h : i.toNat < s.regs.length) :
    readReg (writeReg s i v) i = v := by
  simp [readReg, writeReg, h]

theorem readReg_writeReg_other (s : State) (i r v : Byte) (h : r ≠ i) :
    readReg (writeReg s i v) r = readReg s r := by
  have hne : i.toNat ≠ r.toNat := fun e => h (BitVec.eq_of_toNat_eq e.symm)
  simp [readReg, writeReg, List.getElem?_set_ne hne]

/-! ### `storeByte` -/

@[simp] theorem storeByte_cfg (s : State) (a : Addr) (v : Byte) :
    (storeByte s a v).cfg = s.cfg := rfl
@[simp] theorem storeByte_regs (s : State) (a : Addr) (v : Byte) :
    (storeByte s a v).regs = s.regs := rfl
@[simp] theorem storeByte_pc (s : State) (a : Addr) (v : Byte) : (storeByte s a v).pc = s.pc := rfl
@[simp] theorem storeByte_running (s : State) (a : Addr) (v : Byte) :
    (storeByte s a v).running = s.running := rfl
@[simp] theorem storeByte_priv (s : State) (a : Addr) (v : Byte) :
    (storeByte s a v).priv = s.priv := rfl
@[simp] theorem storeByte_haltReason (s : State) (a : Addr) (v : Byte) :
    (storeByte s a v).haltReason = s.haltReason := rfl
@[simp] theorem storeByte_faultInfo (s : State) (a : Addr) (v : Byte) :
    (storeByte s a v).faultInfo = s.faultInfo := rfl
@[simp] theorem storeByte_mem (s : State) (a : Addr) (v : Byte) :
    (storeByte s a v).mem = s.mem.write a.toNat v := rfl
@[simp] theorem storeByte_events (s : State) (a : Addr) (v : Byte) :
    (storeByte s a v).events = s.events := rfl

/-! ### `raiseFault` -/

@[simp] theorem raiseFault_cfg (r : HaltReason) (f : FaultInfo) (s : State) :
    (raiseFault r f s).cfg = s.cfg := rfl
@[simp] theorem raiseFault_regs (r : HaltReason) (f : FaultInfo) (s : State) :
    (raiseFault r f s).regs = s.regs := rfl
@[simp] theorem raiseFault_pc (r : HaltReason) (f : FaultInfo) (s : State) :
    (raiseFault r f s).pc = s.pc := rfl
@[simp] theorem raiseFault_running (r : HaltReason) (f : FaultInfo) (s : State) :
    (raiseFault r f s).running = false := rfl
@[simp] theorem raiseFault_priv (r : HaltReason) (f : FaultInfo) (s : State) :
    (raiseFault r f s).priv = s.priv := rfl
@[simp] theorem raiseFault_haltReason (r : HaltReason) (f : FaultInfo) (s : State) :
    (raiseFault r f s).haltReason = r := rfl
@[simp] theorem raiseFault_faultInfo (r : HaltReason) (f : FaultInfo) (s : State) :
    (raiseFault r f s).faultInfo = some f := rfl
@[simp] theorem raiseFault_mem (r : HaltReason) (f : FaultInfo) (s : State) :
    (raiseFault r f s).mem = s.mem := rfl
@[simp] theorem raiseFault_events (r : HaltReason) (f : FaultInfo) (s : State) :
    (raiseFault r f s).events = s.events ++ [faultEvent r (some f)] := rfl

/-! ### `haltNormally` -/

@[simp] theorem haltNormally_cfg (s : State) : (haltNormally s).cfg = s.cfg := rfl
@[simp] theorem haltNormally_regs (s : State) : (haltNormally s).regs = s.regs := rfl
@[simp] theorem haltNormally_pc (s : State) : (haltNormally s).pc = s.pc := rfl
@[simp] theorem haltNormally_running (s : State) : (haltNormally s).running = false := rfl
@[simp] theorem haltNormally_priv (s : State) : (haltNormally s).priv = s.priv := rfl
@[simp] theorem haltNormally_haltReason (s : State) :
    (haltNormally s).haltReason = .haltInstr := rfl
@[simp] theorem haltNormally_faultInfo (s : State) :
    (haltNormally s).faultInfo = s.faultInfo := rfl
@[simp] theorem haltNormally_mem (s : State) : (haltNormally s).mem = s.mem := rfl
@[simp] theorem haltNormally_events (s : State) : (haltNormally s).events = s.events := rfl

/-! ### `fetchDenied`: it halts, and of the other fields only `pc` may move -/

@[simp] theorem fetchDenied_cfg (r : DenyReason) (s : State) : (fetchDenied r s).cfg = s.cfg := by
  unfold fetchDenied; split <;> rfl
@[simp] theorem fetchDenied_regs (r : DenyReason) (s : State) : (fetchDenied r s).regs = s.regs := by
  unfold fetchDenied; split <;> rfl
@[simp] theorem fetchDenied_pc (r : DenyReason) (s : State) :
    (fetchDenied r s).pc = if s.cfg.faultPcAdvance then s.pc + 1#16 else s.pc := by
  unfold fetchDenied; split <;> rfl
@[simp] theorem fetchDenied_running (r : DenyReason) (s : State) :
    (fetchDenied r s).running = false := rfl
@[simp] theorem fetchDenied_priv (r : DenyReason) (s : State) : (fetchDenied r s).priv = s.priv := by
  unfold fetchDenied; split <;> rfl
@[simp] theorem fetchDenied_haltReason (r : DenyReason) (s : State) :
    (fetchDenied r s).haltReason = .fetchDenied := rfl
@[simp] theorem fetchDenied_faultInfo (r : DenyReason) (s : State) :
    (fetchDenied r s).faultInfo = some (.denied s.pc r) := rfl
@[simp] theorem fetchDenied_mem (r : DenyReason) (s : State) : (fetchDenied r s).mem = s.mem := by
  unfold fetchDenied; split <;> rfl
@[simp] theorem fetchDenied_events (r : DenyReason) (s : State) :
    (fetchDenied r s).events = s.events ++ [faultEvent .fetchDenied (some (.denied s.pc r))] := by
  unfold fetchDenied; split <;> rfl

/-! ### `withPriv` and `withEvents` -/

@[simp] theorem withPriv_cfg (s : State) (p : Bool) : (s.withPriv p).cfg = s.cfg := rfl
@[simp] theorem withPriv_regs (s : State) (p : Bool) : (s.withPriv p).regs = s.regs := rfl
@[simp] theorem withPriv_pc (s : State) (p : Bool) : (s.withPriv p).pc = s.pc := rfl
@[simp] theorem withPriv_running (s : State) (p : Bool) : (s.withPriv p).running = s.running := rfl
@[simp] theorem withPriv_priv (s : State) (p : Bool) : (s.withPriv p).priv = p := rfl
@[simp] theorem withPriv_haltReason (s : State) (p : Bool) :
    (s.withPriv p).haltReason = s.haltReason := rfl
@[simp] theorem withPriv_faultInfo (s : State) (p : Bool) :
    (s.withPriv p).faultInfo = s.faultInfo := rfl
@[simp] theorem withPriv_mem (s : State) (p : Bool) : (s.withPriv p).mem = s.mem := rfl
@[simp] theorem withPriv_events (s : State) (p : Bool) : (s.withPriv p).events = s.events := rfl

@[simp] theorem withEvents_cfg (s : State) (e : List Event) : (s.withEvents e).cfg = s.cfg := rfl
@[simp] theorem withEvents_regs (s : State) (e : List Event) : (s.withEvents e).regs = s.regs := rfl
@[simp] theorem withEvents_pc (s : State) (e : List Event) : (s.withEvents e).pc = s.pc := rfl
@[simp] theorem withEvents_running (s : State) (e : List Event) :
    (s.withEvents e).running = s.running := rfl
@[simp] theorem withEvents_priv (s : State) (e : List Event) : (s.withEvents e).priv = s.priv := rfl
@[simp] theorem withEvents_haltReason (s : State) (e : List Event) :
    (s.withEvents e).haltReason = s.haltReason := rfl
@[simp] theorem withEvents_faultInfo (s : State) (e : List Event) :
    (s.withEvents e).faultInfo = s.faultInfo := rfl
@[simp] theorem withEvents_mem (s : State) (e : List Event) : (s.withEvents e).mem = s.mem := rfl
@[simp] theorem withEvents_events (s : State) (e : List Event) : (s.withEvents e).events = e := rfl

end Sys2Proof.Machine
end

