-- ==== Sys2Proof/Laws/Fetch.lean ====
section
/-! SUPPORT. Everything a fetch can do, said once: it takes the bytes that stand in memory, or it is
denied on the first byte that the gate refuses. -/

namespace Sys2Proof.Machine

/-! ### The bytes at an address -/

@[simp] theorem addrsFrom_zero (a : Addr) : addrsFrom a 0 = [] := rfl

theorem addrsFrom_succ (a : Addr) (n : Nat) : addrsFrom a (n + 1) = a :: addrsFrom (a + 1#16) n := by
  unfold addrsFrom
  rw [List.range_succ_eq_map]
  simp only [List.map_cons, List.map_map, BitVec.add_zero, List.cons.injEq, true_and]
  apply List.map_congr_left
  intro k _
  simp only [Function.comp_apply, Nat.succ_eq_add_one, Nat.add_comm k 1, BitVec.ofNat_add,
    BitVec.add_assoc]

@[simp] theorem bytesAt_zero (s : State) (a : Addr) : s.bytesAt a 0 = [] := rfl

theorem bytesAt_succ (s : State) (a : Addr) (n : Nat) :
    s.bytesAt a (n + 1) = s.mem.read a.toNat :: s.bytesAt (a + 1#16) n := by
  simp [State.bytesAt, addrsFrom_succ]

@[simp] theorem bytesAt_length (s : State) (a : Addr) (n : Nat) : (s.bytesAt a n).length = n := by
  simp [State.bytesAt, addrsFrom]

@[simp] theorem bytesAt_advance (s : State) (a : Addr) (k n : Nat) :
    (advance k s).bytesAt a n = s.bytesAt a n := rfl

@[simp] theorem fetchable_zero (s : State) (a : Addr) : s.fetchable a 0 = true := rfl

theorem fetchable_succ (s : State) (a : Addr) (n : Nat) :
    s.fetchable a (n + 1) = (allowed s.cfg a s.priv && s.fetchable (a + 1#16) n) := by
  simp [State.fetchable, addrsFrom_succ]

@[simp] theorem fetchable_advance (s : State) (a : Addr) (k n : Nat) :
    (advance k s).fetchable a n = s.fetchable a n := rfl

/-! ### One byte -/

theorem fetch8_of_allowed {s : State} (h : allowed s.cfg s.pc s.priv = true) :
    fetch8 s = .ok (s.mem.read s.pc.toNat, advance 1 s) := by
  simp [fetch8, memRead_of_allowed h]

theorem fetch8_of_denied {s : State} (h : allowed s.cfg s.pc s.priv = false) :
    fetch8 s = .error (fetchDenied (denyReason s.cfg s.pc) s) := by
  simp [fetch8, memRead_of_denied h]

/-! ### Several bytes -/

theorem fetchBytes_of_fetchable {n : Nat} {s : State} (h : s.fetchable s.pc n = true) :
    fetchBytes n s = .ok (s.bytesAt s.pc n, advance n s) := by
  induction n generalizing s with
  | zero => simp [fetchBytes]
  | succ n ih =>
    rw [fetchable_succ, Bool.and_eq_true] at h
    have hr : (advance 1 s).fetchable (advance 1 s).pc n = true := h.2
    simp only [fetchBytes, fetch8_of_allowed h.1, ih hr, advance_advance, bytesAt_succ,
      bytesAt_advance, Nat.add_comm 1 n, advance_pc]

/-- Bytes `0 .. k-1` are allowed and byte `k` is denied: the fetch stops there. -/
theorem fetchBytes_of_denied {k n : Nat} {s : State} (hk : k < n) (h : s.fetchable s.pc k = true)
    (hd : allowed s.cfg (s.pc + BitVec.ofNat 16 k) s.priv = false) :
    fetchBytes n s =
      .error (fetchDenied (denyReason s.cfg (s.pc + BitVec.ofNat 16 k)) (advance k s)) := by
  induction k generalizing n s with
  | zero =>
    obtain ⟨n, rfl⟩ := Nat.exists_eq_add_of_lt hk
    have hd' : allowed s.cfg s.pc s.priv = false := by simpa using hd
    simp [fetchBytes, fetch8_of_denied hd']
  | succ k ih =>
    obtain ⟨n, rfl⟩ : ∃ m, n = m + 1 := ⟨n - 1, by omega⟩
    rw [fetchable_succ, Bool.and_eq_true] at h
    have hpc : s.pc + BitVec.ofNat 16 (k + 1) = (advance 1 s).pc + BitVec.ofNat 16 k := by
      rw [advance_pc, BitVec.add_assoc, ← BitVec.ofNat_add, Nat.add_comm 1 k]
    rw [hpc] at hd ⊢
    have hr := ih (s := advance 1 s) (Nat.lt_of_succ_lt_succ hk) h.2 hd
    simp only [fetchBytes, fetch8_of_allowed h.1, hr, advance_advance, Nat.add_comm 1 k]
    rfl

/-- All `n` bytes are allowed, or there is a first one that is denied. -/
theorem fetchable_or_denied (s : State) (a : Addr) (n : Nat) :
    s.fetchable a n = true ∨ ∃ k < n, s.fetchable a k = true ∧
      allowed s.cfg (a + BitVec.ofNat 16 k) s.priv = false := by
  induction n generalizing a with
  | zero => exact .inl rfl
  | succ n ih =>
    cases ha : allowed s.cfg a s.priv with
    | false => exact .inr ⟨0, by omega, rfl, by simpa using ha⟩
    | true =>
      rcases ih (a + 1#16) with h | ⟨k, hk, h, hd⟩
      · exact .inl (by simp [fetchable_succ, ha, h])
      · refine .inr ⟨k + 1, by omega, by simp [fetchable_succ, ha, h], ?_⟩
        rw [Nat.add_comm k 1, BitVec.ofNat_add, ← BitVec.add_assoc]
        exact hd

/-! ### A whole instruction -/

theorem fetchInstr_of_aboutToRun {s : State} {i : Instr} (h : s.AboutToRun i) :
    fetchInstr s = .ok (i, advance i.length s) := by
  obtain ⟨-, hf, hd⟩ := h
  obtain ⟨n, hn⟩ : ∃ n, i.length = n + 1 := ⟨i.length - 1, by have := i.length_pos; omega⟩
  rw [hn, bytesAt_succ] at hd
  rw [hn, fetchable_succ, Bool.and_eq_true] at hf
  rw [fetchInstr, fetch8_of_allowed hf.1]
  rcases decode_cases hd with ⟨op, e, ho, rfl⟩ | ⟨op, m, bs, e, ho, hl, rfl⟩
  · obtain rfl := (List.cons.inj e).1
    simp only [ho]
    rfl
  · rw [List.append_nil] at e
    obtain ⟨rfl, rfl⟩ := List.cons.inj e
    simp only [assembleBytes_length, Mnemonic.length_eq] at hn
    obtain rfl : n = m.operandBytes := by omega
    have hr : (advance 1 s).fetchable (advance 1 s).pc m.operandBytes = true := hf.2
    simp only [ho, fetchBytes_of_fetchable hr, advance_advance, assembleBytes_length,
      Mnemonic.length_eq]
    rfl

theorem lt_maxLength_of_fetchesByte {s : State} {k : Nat} (h : s.FetchesByte k) : k < maxLength := by
  rcases h with rfl | ⟨m, -, hk⟩
  · decide
  · have hm : m.length ≤ maxLength := by cases m <;> decide
    omega

/-- The step from the opcode byte to operand byte `k`. -/
theorem pc_add_succ (s : State) (k : Nat) :
    s.pc + BitVec.ofNat 16 (k + 1) = (advance 1 s).pc + BitVec.ofNat 16 k := by
  rw [advance_pc, BitVec.add_assoc, ← BitVec.ofNat_add, Nat.add_comm 1 k]

/-- Bytes `0 .. k-1` of the instruction are allowed and byte `k` is denied: the fetch stops there. -/
theorem fetchInstr_of_denied {s : State} {k : Nat} (hk : s.FetchesByte k)
    (hf : s.fetchable s.pc k = true)
    (hd : allowed s.cfg (s.pc + BitVec.ofNat 16 k) s.priv = false) :
    fetchInstr s =
      .error (fetchDenied (denyReason s.cfg (s.pc + BitVec.ofNat 16 k)) (advance k s)) := by
  cases k with
  | zero =>
    have hd' : allowed s.cfg s.pc s.priv = false := by simpa using hd
    simp [fetchInstr, fetch8_of_denied hd']
  | succ k =>
    obtain ⟨m, hm, hk⟩ := hk.resolve_left (by omega)
    rw [fetchable_succ, Bool.and_eq_true] at hf
    rw [pc_add_succ] at hd ⊢
    have hk' : k < m.operandBytes := by rw [Mnemonic.length_eq] at hk; omega
    have hr := fetchBytes_of_denied (s := advance 1 s) hk' hf.2 hd
    simp only [fetchInstr, fetch8_of_allowed hf.1, hm, hr, advance_advance, Nat.add_comm 1 k]
    rfl

/-- An allowed byte that is no opcode is about to run as `unknown`. -/
theorem aboutToRun_unknown {s : State} (hr : s.running = true)
    (ha : allowed s.cfg s.pc s.priv = true)
    (ho : decodeOpcode s.cfg.opcode (s.mem.read s.pc.toNat) = none) :
    s.AboutToRun (.unknown (s.mem.read s.pc.toNat)) := by
  refine ⟨hr, ?_, ?_⟩
  · change s.fetchable s.pc (0 + 1) = true
    simp [fetchable_succ, ha]
  · change decode _ (s.bytesAt s.pc (0 + 1)) = _
    rw [bytesAt_succ, decode_cons_unknown _ ho, bytesAt_zero]

/-- Everything fetching an instruction can do. Either the state is about to run an instruction, which
is fetched whole, or some byte of it, `k` bytes on, is the first that the gate denies. -/
theorem fetchInstr_cases (s : State) (hr : s.running = true) :
    (∃ i, s.AboutToRun i ∧ fetchInstr s = .ok (i, advance i.length s)) ∨
    (∃ k, s.FetchesByte k ∧ s.fetchable s.pc k = true ∧
      allowed s.cfg (s.pc + BitVec.ofNat 16 k) s.priv = false ∧
      fetchInstr s =
        .error (fetchDenied (denyReason s.cfg (s.pc + BitVec.ofNat 16 k)) (advance k s))) := by
  have stops : ∀ k, s.FetchesByte k → s.fetchable s.pc k = true →
      allowed s.cfg (s.pc + BitVec.ofNat 16 k) s.priv = false →
      ∃ k, s.FetchesByte k ∧ s.fetchable s.pc k = true ∧
        allowed s.cfg (s.pc + BitVec.ofNat 16 k) s.priv = false ∧
        fetchInstr s =
          .error (fetchDenied (denyReason s.cfg (s.pc + BitVec.ofNat 16 k)) (advance k s)) :=
    fun k h1 h2 h3 => ⟨k, h1, h2, h3, fetchInstr_of_denied h1 h2 h3⟩
  cases ha : allowed s.cfg s.pc s.priv with
  | false => exact .inr (stops 0 (.inl rfl) rfl (by simpa using ha))
  | true =>
    cases ho : decodeOpcode s.cfg.opcode (s.mem.read s.pc.toNat) with
    | none =>
      have hrun := aboutToRun_unknown hr ha ho
      exact .inl ⟨_, hrun, fetchInstr_of_aboutToRun hrun⟩
    | some m =>
      rcases fetchable_or_denied (advance 1 s) (advance 1 s).pc m.operandBytes with
        hf | ⟨k, hk, hf, hd⟩
      · have hrun :
            s.AboutToRun (assembleBytes m (s.bytesAt (s.pc + 1#16) m.operandBytes)) := by
          rw [State.AboutToRun, assembleBytes_length, Mnemonic.length_eq, Nat.add_comm,
            fetchable_succ, bytesAt_succ, decode_cons_exact ho (bytesAt_length _ _ _)]
          exact ⟨hr, by simpa [ha] using hf, rfl⟩
        exact .inl ⟨_, hrun, fetchInstr_of_aboutToRun hrun⟩
      · refine .inr (stops (k + 1) (.inr ⟨m, ho, ?_⟩) (by simpa [fetchable_succ, ha] using hf) ?_)
        · rw [Mnemonic.length_eq]; omega
        · rw [pc_add_succ]; exact hd

/-- A state is about to run one instruction only. -/
theorem aboutToRun_unique {s : State} {i j : Instr} (hi : s.AboutToRun i) (hj : s.AboutToRun j) :
    i = j := by
  have h := fetchInstr_of_aboutToRun hi
  rw [fetchInstr_of_aboutToRun hj] at h
  cases h
  rfl

/-- A state whose fetch is denied is about to run no instruction. -/
theorem not_aboutToRun_of_denied {s : State} {k : Nat} (hk : s.FetchesByte k)
    (hf : s.fetchable s.pc k = true)
    (hd : allowed s.cfg (s.pc + BitVec.ofNat 16 k) s.priv = false) (i : Instr) :
    ¬ s.AboutToRun i := by
  intro hi
  have h := fetchInstr_of_aboutToRun hi
  rw [fetchInstr_of_denied hk hf hd] at h
  cases h

/-! ### What a denial records -/

theorem denies_iff (s : State) (a : Addr) (r : DenyReason) :
    s.Denies a r ↔ allowed s.cfg a s.priv = false ∧ r = denyReason s.cfg a := by
  rw [← Bool.not_eq_true, allowed_iff]
  unfold State.Denies denyReason
  split <;> cases hp : s.priv <;> cases r <;> simp <;> omega

@[simp] theorem severityOf_denied (a : Addr) (r : DenyReason) :
    severityOf (some (.denied a r)) = denialSeverity r := by
  cases r <;> rfl

end Sys2Proof.Machine
end

