-- ==== Sys2Proof/Laws/Exec.lean ====
section
/-! SUPPORT. Everything the shared operations and the instructions can answer, said once. -/

namespace Sys2Proof.Machine

/-! ### The register check -/

/-- What the check answers for one register field. -/
theorem firstInvalid_one (n : Nat) (a : Byte) :
    firstInvalid n [a] = if n ≤ a.toNat then some a else none := by
  by_cases h : n ≤ a.toNat <;> simp [firstInvalid, h]

/-- For two fields the first in offset order is reported (R85). -/
theorem firstInvalid_two (n : Nat) (a b : Byte) :
    firstInvalid n [a, b] =
      if n ≤ a.toNat then some a else if n ≤ b.toNat then some b else none := by
  by_cases h : n ≤ a.toNat <;> by_cases h' : n ≤ b.toNat <;> simp [firstInvalid, h, h']

/-- Every field is below `N_REGS` exactly when the check finds none. -/
theorem firstInvalid_eq_none_iff {n : Nat} {fields : List Byte} :
    firstInvalid n fields = none ↔ ∀ f ∈ fields, f.toNat < n := by
  simp [firstInvalid]

theorem firstInvalid_some {n : Nat} {fields : List Byte} {f : Byte}
    (h : firstInvalid n fields = some f) : f ∈ fields ∧ n ≤ f.toNat := by
  unfold firstInvalid at h
  exact ⟨List.mem_of_find?_eq_some h, by simpa using List.find?_some h⟩

theorem withValidRegs_of_valid {fields : List Byte} {s : State}
    {rest : Host.Outcome State Fault Refusal} (h : ∀ f ∈ fields, f.toNat < s.cfg.nRegs) :
    withValidRegs fields s rest = rest := by
  simp [withValidRegs, firstInvalid_eq_none_iff.mpr h]

theorem withValidRegs_of_invalid {fields : List Byte} {s : State} {f : Byte}
    {rest : Host.Outcome State Fault Refusal} (h : firstInvalid s.cfg.nRegs fields = some f) :
    withValidRegs fields s rest = .next (raiseFault .invalidRegister (.index f) s) := by
  simp [withValidRegs, h]

/-- Everything the register check can answer. -/
theorem withValidRegs_cases (fields : List Byte) (s : State)
    (rest : Host.Outcome State Fault Refusal) :
    (∃ f, firstInvalid s.cfg.nRegs fields = some f ∧
      withValidRegs fields s rest = .next (raiseFault .invalidRegister (.index f) s)) ∨
    ((∀ f ∈ fields, f.toNat < s.cfg.nRegs) ∧ withValidRegs fields s rest = rest) := by
  cases h : firstInvalid s.cfg.nRegs fields with
  | some f => exact .inl ⟨f, rfl, withValidRegs_of_invalid h⟩
  | none =>
    have hv := firstInvalid_eq_none_iff.mp h
    exact .inr ⟨hv, withValidRegs_of_valid hv⟩

/-! ### The four functions as machine arithmetic -/

theorem aluAdd_toNat (a b : Byte) : (aluAdd a b).toNat = (a.toNat + b.toNat) % 256 := by
  simp [aluAdd]

theorem aluSub_toNat (a b : Byte) : (aluSub a b).toNat = (a.toNat + 256 - b.toNat) % 256 := by
  simp [aluSub]

theorem aluMlp_toNat (a b : Byte) : (aluMlp a b).toNat = (a.toNat * b.toNat) % 256 := by
  simp [aluMlp]

/-- The quotient is never larger than the dividend, so nothing is lost (R115). -/
theorem aluDiv_toNat (a b : Byte) : (aluDiv a b).toNat = a.toNat / b.toNat := by
  have h : a.toNat / b.toNat ≤ a.toNat := Nat.div_le_self _ _
  have := a.isLt
  rw [aluDiv, BitVec.toNat_ofNat, Nat.mod_eq_of_lt (by omega)]

/-! ### What an instruction can answer -/

/-- The ways an instruction ends, each with what it does to the state after the fetch. -/
inductive ExecEnds (i : Instr) (s : State) : Host.Outcome State Fault Refusal → Prop where
  /-- One register is written: the first register field of an instruction that is no `STORE`, and a
  valid one (R86). -/
  | wroteReg (d v : Byte) (hf : i.regFields.head? = some d) (hi : ∀ reg a, i ≠ .store reg a)
      (hd : d.toNat < s.cfg.nRegs) : ExecEnds i s (.next (writeReg s d v))
  /-- One byte is stored, where the gate allows it (R131). -/
  | stored (reg : Byte) (a : Addr) (hi : i = .store reg a) (hr : reg.toNat < s.cfg.nRegs)
      (ha : allowed s.cfg a s.priv = true) : ExecEnds i s (.next (storeByte s a (readReg s reg)))
  /-- `HALT` (R151). -/
  | halted (hi : i = .halt) : ExecEnds i s (.next (haltNormally s))
  /-- A fault of the spec (R181), with the information that goes with its cause. -/
  | faulted (cause : HaltReason) (info : FaultInfo) (hf : cause.isFault = true)
      (hfit : cause.fits (some info) = true) (hi : i ≠ .halt) :
      ExecEnds i s (.next (raiseFault cause info s))
  /-- A division by zero under `DIV_ZERO_POLICY = undefined` (R118). -/
  | refusedDivision (dst src : Byte) (hi : i = .div dst src)
      (hp : s.cfg.divZeroPolicy = .undefined) (hz : readReg s src = 0) :
      ExecEnds i s (.refused .divByZeroUndefined)

/-- No instruction moves `pc`: the fetch has (R26). -/
theorem ExecEnds.pc_eq {i : Instr} {s t : State} (h : ExecEnds i s (.next t)) : t.pc = s.pc := by
  cases h <;> rfl

/-- An instruction that begins with the register check ends in that fault, or as the rest does. -/
theorem ExecEnds.of_withValidRegs {i : Instr} {s : State} {fields : List Byte}
    {rest : Host.Outcome State Fault Refusal} (hi : i ≠ .halt)
    (h : (∀ f ∈ fields, f.toNat < s.cfg.nRegs) → ExecEnds i s rest) :
    ExecEnds i s (withValidRegs fields s rest) := by
  rcases withValidRegs_cases fields s rest with ⟨f, -, e⟩ | ⟨hv, e⟩
  · rw [e]
    exact .faulted _ _ rfl rfl hi
  · rw [e]
    exact h hv

theorem execDiv_ends (dst src : Byte) (s : State) :
    ExecEnds (.div dst src) s (execDiv dst src s) := by
  refine .of_withValidRegs (by simp) fun hv => ?_
  split
  · rename_i hz
    unfold divideByZero
    split
    · exact .faulted _ _ rfl rfl (by simp)
    · exact .refusedDivision dst src rfl (by assumption) hz
  · exact .wroteReg dst _ rfl (by simp) (hv dst (by simp))

theorem execStore_ends (reg : Byte) (a : Addr) (s : State) :
    ExecEnds (.store reg a) s (execStore reg a s) := by
  refine .of_withValidRegs (by simp) fun hv => ?_
  cases ha : allowed s.cfg a s.priv with
  | false =>
    rw [memWrite_of_denied ha]
    exact .faulted _ _ rfl rfl (by simp)
  | true =>
    rw [memWrite_of_allowed ha]
    exact .stored reg a rfl (hv reg (by simp)) ha

theorem execLoadMem_ends (reg : Byte) (a : Addr) (s : State) :
    ExecEnds (.loadMem reg a) s (execLoadMem reg a s) := by
  refine .of_withValidRegs (by simp) fun hv => ?_
  cases ha : allowed s.cfg a s.priv with
  | false =>
    rw [memRead_of_denied ha]
    exact .faulted _ _ rfl rfl (by simp)
  | true =>
    rw [memRead_of_allowed ha]
    exact .wroteReg reg _ rfl (by simp) (hv reg (by simp))

/-- Everything an instruction can answer. -/
theorem exec_ends (i : Instr) (s : State) : ExecEnds i s (exec i s) := by
  cases i with
  | loadImm reg imm =>
    exact .of_withValidRegs (by simp) fun hv =>
      .wroteReg reg imm rfl (by simp) (hv reg (by simp))
  | add dst src =>
    exact .of_withValidRegs (by simp) fun hv =>
      .wroteReg dst _ rfl (by simp) (hv dst (by simp))
  | sub dst src =>
    exact .of_withValidRegs (by simp) fun hv =>
      .wroteReg dst _ rfl (by simp) (hv dst (by simp))
  | mlp dst src =>
    exact .of_withValidRegs (by simp) fun hv =>
      .wroteReg dst _ rfl (by simp) (hv dst (by simp))
  | div dst src => exact execDiv_ends dst src s
  | store reg a => exact execStore_ends reg a s
  | loadMem reg a => exact execLoadMem_ends reg a s
  | halt => exact .halted rfl
  | unknown op => exact .faulted _ _ rfl rfl (by simp)

end Sys2Proof.Machine
end

