-- ==== Sys2Proof/Laws/PerInstr.lean ====
section
/-! SUPPORT. A fact about every instruction as syntax, one lemma per constructor: the encoder writes as
many bytes as the shared length lookup of R78 says, and puts first the byte of the mnemonic. -/

namespace Sys2Proof.Laws.EncodeShape

/-- The encoding begins with `OPCODE` of the mnemonic, if there is one, and has `length` bytes. -/
def Statement (i : Instr) : Prop :=
  ∀ o : OpcodeMap,
    (encode o i).length = i.length ∧
    ∀ m, i.mnemonic = some m → (encode o i).head? = some (o.get m)

theorem loadImm (reg imm : Byte) : Statement (.loadImm reg imm) :=
  fun _ => ⟨rfl, fun _ h => by cases h; rfl⟩

theorem add (dst src : Byte) : Statement (.add dst src) :=
  fun _ => ⟨rfl, fun _ h => by cases h; rfl⟩

theorem sub (dst src : Byte) : Statement (.sub dst src) :=
  fun _ => ⟨rfl, fun _ h => by cases h; rfl⟩

theorem mlp (dst src : Byte) : Statement (.mlp dst src) :=
  fun _ => ⟨rfl, fun _ h => by cases h; rfl⟩

theorem div (dst src : Byte) : Statement (.div dst src) :=
  fun _ => ⟨rfl, fun _ h => by cases h; rfl⟩

theorem store (reg : Byte) (addr : Addr) : Statement (.store reg addr) :=
  fun _ => ⟨rfl, fun _ h => by cases h; rfl⟩

theorem loadMem (reg : Byte) (addr : Addr) : Statement (.loadMem reg addr) :=
  fun _ => ⟨rfl, fun _ h => by cases h; rfl⟩

theorem halt : Statement .halt :=
  fun _ => ⟨rfl, fun _ h => by cases h; rfl⟩

theorem unknown (op : Byte) : Statement (.unknown op) :=
  fun _ => ⟨rfl, fun _ h => by cases h⟩

end Sys2Proof.Laws.EncodeShape
end

