-- ==== Sys2Proof/Laws/Start.lean ====
section
/-! SUPPORT. The laws of loading an image: what each address reads as afterwards, and that the
canonical form is kept. -/

namespace Sys2Proof.Machine

theorem loadBytes_read_outside (m : Memory) (a : Nat) (img : List Byte) (b : Nat)
    (h : b < a ∨ a + img.length ≤ b) : (loadBytes m a img).read b = m.read b := by
  induction img generalizing m a with
  | nil => rfl
  | cons v rest ih =>
    simp only [List.length_cons] at h
    rw [loadBytes, ih _ _ (by omega), Memory.read_write_other _ _ _ _ (by omega)]

/-- Loading an image keeps the canonical form. -/
theorem loadBytes_wf (m : Memory) (a : Nat) (img : List Byte) (h : m.wf) :
    (loadBytes m a img).wf := by
  induction img generalizing m a with
  | nil => exact h
  | cons v rest ih => exact ih _ _ (Memory.wf_write _ _ _ h)

theorem loadBytes_read_inside (m : Memory) (a : Nat) (img : List Byte) (k : Nat) (b : Byte)
    (hm : m.wf) (h : img[k]? = some b) : (loadBytes m a img).read (a + k) = b := by
  induction img generalizing m a k with
  | nil => simp at h
  | cons v rest ih =>
    cases k with
    | zero =>
      simp only [List.getElem?_cons_zero, Option.some.injEq] at h
      rw [loadBytes, loadBytes_read_outside _ _ _ _ (by omega), Nat.add_zero,
        Memory.read_write_same _ _ _ hm, h]
    | succ k =>
      rw [loadBytes, show a + (k + 1) = (a + 1) + k by omega]
      exact ih _ _ _ (Memory.wf_write m a v hm) (by simpa using h)

/-- An image that ends below a bound lists nothing at or above it. -/
theorem loadBytes_lt (m : Memory) (a n : Nat) (img : List Byte) (h : ∀ c ∈ m, c.1 < n)
    (hl : a + img.length ≤ n) : ∀ c ∈ loadBytes m a img, c.1 < n := by
  induction img generalizing m a with
  | nil => exact h
  | cons v rest ih =>
    simp only [List.length_cons] at hl
    exact ih _ _ (Memory.write_lt (by omega) h) (by omega)

/-- Placing bytes keeps the canonical form. -/
theorem placeBytes_wf (c : Config) (m : Memory) (cells : List (Addr × Byte)) (h : m.wf) :
    (placeBytes c m cells).wf := by
  induction cells generalizing m with
  | nil => exact h
  | cons x rest ih =>
    obtain ⟨a, b⟩ := x
    rw [placeBytes]
    split
    · exact ih _ (Memory.wf_write _ _ _ h)
    · exact ih _ h

end Sys2Proof.Machine
end

