-- ==== Sys2Proof/Laws/Step.lean ====
section
/-! SUPPORT. Everything a step can do, said once; every invariant is derived from this. -/

namespace Sys2Proof.Machine

theorem step_of_halted {s : State} (h : s.running = false) : step s = .fault .halted := by
  simp [step, h]

theorem step_of_aboutToRun {s : State} {i : Instr} (h : s.AboutToRun i) :
    step s = exec i (advance i.length s) := by
  simp [step, h.1, fetchInstr_of_aboutToRun h]

theorem step_of_denied {s : State} {k : Nat} (hr : s.running = true) (hk : s.FetchesByte k)
    (hf : s.fetchable s.pc k = true)
    (hd : allowed s.cfg (s.pc + BitVec.ofNat 16 k) s.priv = false) :
    step s = .next (fetchDenied (denyReason s.cfg (s.pc + BitVec.ofNat 16 k)) (advance k s)) := by
  simp [step, hr, fetchInstr_of_denied hk hf hd]

/-- What a running engine's step does: it runs the instruction that stands at `pc`, or its fetch is
denied `k` bytes on. -/
theorem step_cases (s : State) (hr : s.running = true) :
    (∃ i, s.AboutToRun i ∧ step s = exec i (advance i.length s)) ∨
    (∃ k, s.FetchesByte k ∧ s.fetchable s.pc k = true ∧
      allowed s.cfg (s.pc + BitVec.ofNat 16 k) s.priv = false ∧
      step s =
        .next (fetchDenied (denyReason s.cfg (s.pc + BitVec.ofNat 16 k)) (advance k s))) := by
  rcases fetchInstr_cases s hr with ⟨i, hi, -⟩ | ⟨k, hk, hf, hd, -⟩
  · exact .inl ⟨i, hi, step_of_aboutToRun hi⟩
  · exact .inr ⟨k, hk, hf, hd, step_of_denied hr hk hf hd⟩

/-- A step that answers a next state was taken by a running engine. -/
theorem running_of_step {s t : State} (h : step s = .next t) : s.running = true := by
  cases hr : s.running with
  | true => rfl
  | false => rw [step_of_halted hr] at h; cases h

/-- The step inversion: how a step that answers a next state got there. -/
theorem step_next_cases {s t : State} (h : step s = .next t) :
    (∃ i, s.AboutToRun i ∧ ExecEnds i (advance i.length s) (.next t)) ∨
    (∃ k, s.FetchesByte k ∧ s.fetchable s.pc k = true ∧
      allowed s.cfg (s.pc + BitVec.ofNat 16 k) s.priv = false ∧
      t = fetchDenied (denyReason s.cfg (s.pc + BitVec.ofNat 16 k)) (advance k s)) := by
  rcases step_cases s (running_of_step h) with ⟨i, hi, e⟩ | ⟨k, hk, hf, hd, e⟩
  · refine .inl ⟨i, hi, ?_⟩
    rw [← h, e]
    exact exec_ends i _
  · rw [h] at e
    cases e
    exact .inr ⟨k, hk, hf, hd, rfl⟩

/-! ### Runs -/

/-- A run of at least one step that answers a next state, cut after its first step. -/
theorem runSteps_succ_cases {k : Nat} {s t : State} (h : runSteps (k + 1) s = .next t) :
    ∃ u, step s = .next u ∧ runSteps k u = .next t := by
  rw [runSteps] at h
  cases hs : step s with
  | next u => exact ⟨u, rfl, by rwa [hs] at h⟩
  | fault r => rw [hs] at h; cases h
  | refused r => rw [hs] at h; cases h

@[simp] theorem runSteps_zero (s : State) : runSteps 0 s = .next s := rfl

theorem runSteps_succ_of_next {s t : State} (k : Nat) (h : step s = .next t) :
    runSteps (k + 1) s = runSteps k t := by
  rw [runSteps, h]

theorem runSteps_succ_of_fault {s : State} {r : Fault} (k : Nat) (h : step s = .fault r) :
    runSteps (k + 1) s = .fault r := by
  rw [runSteps, h]

theorem runSteps_succ_of_refused {s : State} {r : Refusal} (k : Nat) (h : step s = .refused r) :
    runSteps (k + 1) s = .refused r := by
  rw [runSteps, h]

theorem runSteps_one (s : State) : runSteps 1 s = step s := by
  rw [runSteps]
  cases step s <;> rfl

/-- A run of any machine behind the host's interface is any function with the same two equations. -/
theorem core_run_unique (M : Host.Core)
    (run : Nat → M.State → Host.Outcome M.State M.Fault M.Refusal)
    (h0 : ∀ s, run 0 s = .next s)
    (hn : ∀ k s t, M.step s = .next t → run (k + 1) s = run k t)
    (hf : ∀ k s r, M.step s = .fault r → run (k + 1) s = .fault r)
    (hr : ∀ k s r, M.step s = .refused r → run (k + 1) s = .refused r)
    (k : Nat) (s : M.State) : M.run k s = run k s := by
  induction k generalizing s with
  | zero => rw [Host.Core.run, h0]
  | succ k ih =>
    rw [Host.Core.run]
    cases h : M.step s with
    | next t => rw [hn k s t h]; exact ih t
    | fault r => rw [hf k s r h]
    | refused r => rw [hr k s r h]

/-- `runSteps` is the run of the machine behind the host's interface. -/
theorem core_run_eq_runSteps (k : Nat) (s : State) :
    @Host.Core.run Sys2Proof.core k s = runSteps k s :=
  core_run_unique Sys2Proof.core runSteps (fun _ => rfl)
    (fun k _ _ h => runSteps_succ_of_next k h)
    (fun k _ _ h => runSteps_succ_of_fault k h)
    (fun k _ _ h => runSteps_succ_of_refused k h)
    k s

end Sys2Proof.Machine
end

