-- ==== Sys2Proof/Tests/Slice0.lean ====
section
/-! SUPPORT. Tests by evaluation. Expected values come from the encodings of R61 to R70, from the test
vectors of 95_test_vectors.md (named TV in the comments) or from hand calculation. The theorems named
`witness_` show that the hypotheses of an obligation can be met. -/

namespace Sys2Proof.Tests

open Sys2Proof.Machine

/-! ### Helpers -/

/-- The next state of an outcome, if there is one. -/
def nextOf (o : Host.Outcome State Fault Refusal) : Option State :=
  match o with
  | .next t => some t
  | .fault _ => none
  | .refused _ => none

/-- The reset state with a mode, a `pc`, registers, and bytes loaded from `org` on. -/
def st (priv : Bool) (pc : Addr) (regs : List Byte) (org : Nat) (bytes : List Byte) : State :=
  { State.reset with priv := priv, pc := pc, regs := regs, mem := loadBytes [] org bytes }

/-- Eight registers of which the first two are given. -/
def r2 (a b : Byte) : List Byte := [a, b, 0, 0, 0, 0, 0, 0]

/-- What an instruction at 0x3000 does, non-privileged: registers, `pc`, `halt_reason`, `fault_info`. -/
def run3000 (regs : List Byte) (bytes : List Byte) :
    Option (List Byte × Addr × HaltReason × Option FaultInfo) :=
  (nextOf (step (st false 0x3000 regs 0x3000 bytes))).map fun t =>
    (t.regs, t.pc, t.haltReason, t.faultInfo)

/-- The default configuration with a smaller memory. -/
def small (n : Nat) : Config := { Config.default with memSize := n }

/-- `st` under another configuration. -/
def under (c : Config) (s : State) : State := { s with cfg := c }

/-! ### Well-formedness -/

/-- An opcode byte is no `unknown` instruction. -/
theorem test_wellFormed_refuses_unknown_of_an_opcode :
    (Instr.unknown 0x08).wellFormed OpcodeMap.default = false := by decide

theorem test_wellFormed_admits_unknown_of_no_opcode :
    (Instr.unknown 0x00).wellFormed OpcodeMap.default = true := by decide

theorem test_legal_refuses_register_8 : (Instr.add 0 8).legal Config.default = false := by decide

theorem test_legal_refuses_unknown : (Instr.unknown 0x00).legal Config.default = false := by decide

theorem test_legal_admits_register_7 : (Instr.add 0 7).legal Config.default = true := by decide

theorem test_injective_refuses_a_shared_byte :
    ¬ (OpcodeMap.Injective { OpcodeMap.default with halt := 0x01 }) := by decide

theorem test_valid_refuses_no_registers : ¬ ({ Config.default with nRegs := 0 } : Config).Valid := by
  decide

theorem test_valid_refuses_257_registers :
    ¬ ({ Config.default with nRegs := 257 } : Config).Valid := by decide

theorem test_valid_refuses_an_empty_memory : ¬ (small 0).Valid := by decide

theorem test_valid_refuses_a_memory_past_16_bits : ¬ (small 65537).Valid := by decide

/-! ### Decoding, word by word (R61 to R70) -/

/-- 00000001 00000000 00000101: `LOAD_IMM R0, #5` (TV-A). -/
theorem test_decode_loadImm :
    decodeTableWord 24 0x050001 = some (.loadImm 0 5) := by decide

/-- 00000010 00000000 00000001: `ADD R0, R1` (TV-C). -/
theorem test_decode_add : decodeTableWord 24 0x010002 = some (.add 0 1) := by decide

/-- 00000011 00000010 00000111: `SUB R2, R7`. -/
theorem test_decode_sub : decodeTableWord 24 0x070203 = some (.sub 2 7) := by decide

/-- 00000100 00000010 00000011: `MLP R2, R3` (R114). -/
theorem test_decode_mlp : decodeTableWord 24 0x030204 = some (.mlp 2 3) := by decide

/-- 00000101 00000000 11001000: `DIV R0, index 200`. -/
theorem test_decode_div : decodeTableWord 24 0xC80005 = some (.div 0 200) := by decide

/-- 00000110 00000001 00010010 00110100: `STORE R1, 0x1234`. -/
theorem test_decode_store : decodeTableWord 32 0x34120106 = some (.store 1 0x1234) := by decide

/-- 00000111 00000101 01000000 00000000: `LOAD_MEM R5, 0x4000`. -/
theorem test_decode_loadMem : decodeTableWord 32 0x00400507 = some (.loadMem 5 0x4000) := by decide

/-- 00001000: `HALT`. -/
theorem test_decode_halt : decodeTableWord 8 0x08 = some .halt := by decide

/-- 2.2 of the vectors: the bytes that are no opcode. -/
theorem test_decode_unknown :
    decodeTableWord 8 0x00 = some (.unknown 0x00) ∧ decodeTableWord 8 0x09 = some (.unknown 0x09) ∧
    decodeTableWord 8 0x80 = some (.unknown 0x80) ∧
    decodeTableWord 8 0xFF = some (.unknown 0xFF) := by decide

/-- Bits from `nbits` up do not count. -/
theorem test_decode_ignores_bits_above : decodeTableWord 8 0xFFFF01 = some (.loadImm 0 0) := by decide

theorem test_decode_nothing : decode OpcodeMap.default [] = .error .empty := rfl

/-- P1 of the vectors: the bytes of its last four instructions. -/
theorem test_encode_p1 :
    encode OpcodeMap.default (.div 0 2) = [0x05, 0x00, 0x02] ∧
    encode OpcodeMap.default (.store 0 0x301E) = [0x06, 0x00, 0x30, 0x1E] ∧
    encode OpcodeMap.default (.loadMem 3 0x301E) = [0x07, 0x03, 0x30, 0x1E] ∧
    encode OpcodeMap.default .halt = [0x08] := by decide

/-- The step after reset runs the placed word, for each row of the table. -/
theorem test_withFetchWord_runs_after_reset :
    (nextOf (step (State.reset.withFetchWord 24 0x050001))).map (·.regs) = some (r2 5 0) ∧
    (nextOf (step (State.reset.withFetchWord 32 0x00000006))).map (·.mem) =
      some [] ∧
    (nextOf (step (State.reset.withFetchWord 32 0x00000307))).map (·.regs) =
      some [0, 0, 0, 7, 0, 0, 0, 0] ∧
    (nextOf (step (State.reset.withFetchWord 8 0x08))).map (·.haltReason) = some .haltInstr ∧
    (nextOf (step (State.reset.withFetchWord 8 0xFF))).map (·.faultInfo) =
      some (some (.opcode 0x0000 0xFF)) := by decide

/-- The mode is raised only where the gate would deny the placed bytes. -/
theorem test_withFetchWord_mode :
    ((st false 0x2000 (r2 0 0) 0 []).withFetchWord 8 0x08).priv = true ∧
    ((st false 0x2001 (r2 0 0) 0 []).withFetchWord 8 0x08).priv = false := by decide

/-! ### The gate (2.1 of the vectors) -/

theorem test_gate_default :
    allowed Config.default 0x0000 false = false ∧ allowed Config.default 0x1FFF false = false ∧
    allowed Config.default 0x2000 false = false ∧ allowed Config.default 0x2001 false = true ∧
    allowed Config.default 0xFFFF false = true ∧ allowed Config.default 0x0000 true = true ∧
    allowed Config.default 0x2000 true = true ∧ allowed Config.default 0xFFFF true = true := by
  decide

theorem test_gate_small_memory :
    allowed (small 0x8000) 0x8000 true = false ∧ denyReason (small 0x8000) 0x8000 = .outOfBounds ∧
    allowed (small 0x8000) 0x7FFF false = true ∧ allowed (small 0x1000) 0x1800 false = false ∧
    denyReason (small 0x1000) 0x1800 = .outOfBounds ∧ allowed (small 0x1000) 0x0800 true = true := by
  decide

/-! ### Instructions, one step each -/

/-- 2.3 of the vectors: `01 03 80`. -/
theorem test_loadImm : run3000 [0, 0, 0, 1, 0, 0, 0, 0] [0x01, 0x03, 0x80] =
    some ([0, 0, 0, 128, 0, 0, 0, 0], 0x3003, .none, none) := by decide

/-- 2.3 of the vectors: `01 08 05`. -/
theorem test_loadImm_invalid_register : run3000 (r2 0 0) [0x01, 0x08, 0x05] =
    some (r2 0 0, 0x3003, .invalidRegister, some (.index 8)) := by decide

/-- TV-C. -/
theorem test_add_wraps : run3000 (r2 250 10) [0x02, 0x00, 0x01] =
    some (r2 4 10, 0x3003, .none, none) := by decide

/-- 2.4 of the vectors: `02 08 09` reports `dst`. -/
theorem test_add_reports_dst_first : run3000 (r2 0 0) [0x02, 0x08, 0x09] =
    some (r2 0 0, 0x3003, .invalidRegister, some (.index 8)) := by decide

/-- R113: 3 - 5 is 254. -/
theorem test_sub_wraps : run3000 (r2 3 5) [0x03, 0x00, 0x01] =
    some (r2 254 5, 0x3003, .none, none) := by decide

/-- 2.4 of the vectors: 200 - 100 is 100. -/
theorem test_sub_order : run3000 (r2 200 100) [0x03, 0x00, 0x01] =
    some (r2 100 100, 0x3003, .none, none) := by decide

/-- 2.4 of the vectors: 255 * 255 is 1. -/
theorem test_mlp_wraps : run3000 (r2 255 255) [0x04, 0x00, 0x01] =
    some (r2 1 255, 0x3003, .none, none) := by decide

/-- 2.4 of the vectors: `MLP R1, R1` with 20 gives 144. -/
theorem test_mlp_same_register : run3000 (r2 0 20) [0x04, 0x01, 0x01] =
    some (r2 0 144, 0x3003, .none, none) := by decide

/-- 2.4 of the vectors: 255 / 2 is 127, so the division is unsigned. -/
theorem test_div_unsigned : run3000 (r2 255 2) [0x05, 0x00, 0x01] =
    some (r2 127 2, 0x3003, .none, none) := by decide

/-- 2.4 of the vectors: 7 / 0 halts and leaves 7. -/
theorem test_div_by_zero : run3000 (r2 7 0) [0x05, 0x00, 0x01] =
    some (r2 7 0, 0x3003, .divByZero, some (.index 1)) := by decide

/-- 2.5 of the vectors: `06 01 12 34`, privileged, is big-endian. -/
theorem test_store_big_endian :
    (nextOf (step (st true 0x3000 (r2 0 0xAB) 0x3000 [0x06, 0x01, 0x12, 0x34]))).map
      (fun t => (t.mem.read 0x1234, t.mem.read 0x3412, t.pc)) = some (0xAB, 0, 0x3004) := by decide

/-- TV-D. -/
theorem test_store_denied :
    (nextOf (step (st false 0x3000 (r2 7 0) 0x3000 [0x06, 0x00, 0x00, 0x10]))).map
      (fun t => (t.mem.read 0x0010, t.faultInfo, t.events)) =
    some (0, some (.denied 0x0010 .privilege),
      [Event.mk .unauthorizedAccess .dataWriteDenied (some (.denied 0x0010 .privilege))]) := by decide

/-- 2.5 of the vectors: `07 04 30 01` reads its own register byte. -/
theorem test_loadMem_own_byte : run3000 (r2 0 0) [0x07, 0x04, 0x30, 0x01] =
    some ([0, 0, 0, 0, 4, 0, 0, 0], 0x3004, .none, none) := by decide

/-- 2.5 of the vectors: `07 02 01 00`. -/
theorem test_loadMem_denied : run3000 [0, 0, 9, 0, 0, 0, 0, 0] [0x07, 0x02, 0x01, 0x00] =
    some ([0, 0, 9, 0, 0, 0, 0, 0], 0x3004, .dataReadDenied,
      some (.denied 0x0100 .privilege)) := by decide

/-- 2.6 of the vectors: `08` at 0xFFFF wraps `pc`. -/
theorem test_halt_wraps_pc :
    (nextOf (step (st false 0xFFFF (r2 0 0) 0xFFFF [0x08]))).map
      (fun t => (t.pc, t.running, t.haltReason)) = some (0x0000, false, .haltInstr) := by decide

/-- 2.6 of the vectors: `FF` at 0x3000. -/
theorem test_unknown : run3000 (r2 0 0) [0xFF] =
    some (r2 0 0, 0x3001, .unknownOpcode, some (.opcode 0x3000 0xFF)) := by decide

/-- 2.3 of the vectors: `01 09` at 0xFFFE; the denied immediate beats the invalid register. -/
theorem test_fetch_wraps_and_is_denied :
    (nextOf (step (st false 0xFFFE (r2 0 0) 0xFFFE [0x01, 0x09]))).map
      (fun t => (t.pc, t.haltReason, t.faultInfo)) =
    some (0x0000, .fetchDenied, some (.denied 0x0000 .privilege)) := by decide

/-- 2.6 of the vectors: `06 00 30` at 0x7FFD with `MEM_SIZE` 0x8000 and `FAULT_PC_ADVANCE`. -/
theorem test_fetch_out_of_bounds_advances :
    (nextOf (step (under { small 0x8000 with faultPcAdvance := true }
      (st false 0x7FFD (r2 0 0) 0x7FFD [0x06, 0x00, 0x30])))).map
      (fun t => (t.pc, t.faultInfo)) = some (0x8001, some (.denied 0x8000 .outOfBounds)) := by decide

/-- R200: an image that ends at 0x10000 fits, one byte more does not (P4). -/
theorem test_start_at_the_top :
    (start Config.default [1, 0, 1] 0xFFFD 0xFFFD false).isSome = true ∧
    start Config.default [1, 0, 1, 8] 0xFFFD 0xFFFD false = none := by decide

/-! ### Witnesses: the hypotheses of each obligation can be met -/

/-- An image that ends at the top of memory, and one in the middle with the edges of both memory clauses:
its first and last byte, and the addresses just below and just above it. -/
theorem witness_StartGivesEveryFieldItsValue :
    (0xFFFD : Addr).toNat + ([1, 0, 1] : List Byte).length ≤ Config.default.memSize ∧
    (0x2001 : Addr).toNat + ([7, 9] : List Byte).length ≤ Config.default.memSize ∧
    ([7, 9] : List Byte)[0]? = some 7 ∧ ([7, 9] : List Byte)[1]? = some 9 ∧
    0x2000 < (0x2001 : Addr).toNat ∧
    (0x2001 : Addr).toNat + ([7, 9] : List Byte).length ≤ 0x2003 := by decide

/-- R202 at those edges. -/
theorem test_start_places_the_image :
    (start Config.default [7, 9] 0x2001 0x2001 false).map
      (fun s => (s.mem.read 0x2000, s.mem.read 0x2001, s.mem.read 0x2002, s.mem.read 0x2003)) =
    some (0, 7, 9, 0) := by decide

theorem witness_OversizedImageStartsNoRun :
    Config.default.memSize < (0xFFFD : Addr).toNat + ([1, 0, 1, 8] : List Byte).length := by decide

theorem witness_EveryStartMeetsTheInvariant :
    Config.default.Valid ∧ ∃ s, start Config.default [8] 0 0 true = some s := ⟨by decide, _, rfl⟩

/-- A step that completes, and one that faults. -/
theorem witness_EveryStepKeepsTheInvariant :
    ((st false 0x3000 (r2 3 5) 0x3000 [0x03, 0x00, 0x01]).Inv ∧
      ∃ t, step (st false 0x3000 (r2 3 5) 0x3000 [0x03, 0x00, 0x01]) = .next t) ∧
    (State.reset.Inv ∧ ∃ t, step State.reset = .next t) :=
  ⟨⟨by decide, _, rfl⟩, by decide, _, rfl⟩

theorem witness_DecodeOfEncodeIsTheInstruction :
    OpcodeMap.default.Injective ∧ (Instr.store 7 0xFFFF).wellFormed OpcodeMap.default = true ∧
    (Instr.unknown 0x09).wellFormed OpcodeMap.default = true := by decide

theorem witness_EncodeOfDecodeIsTheBytes :
    decode OpcodeMap.default [0x07, 0xFF, 0xFF, 0xFE, 0x08] = .ok (.loadMem 0xFF 0xFFFE, [0x08]) := rfl

/-- For `OpcodeByteDecidesTheMnemonic` and `AddressOperandIsBigEndian`, the default and another map. -/
theorem witness_injective_opcode_maps :
    OpcodeMap.default.Injective ∧
    OpcodeMap.Injective { OpcodeMap.default with halt := 0x00, loadImm := 0xFF } := by decide

theorem witness_StepRunsTheInstructionAtPc :
    State.running (st false 0x3000 (r2 3 5) 0x3000 [0x03, 0x00, 0x01]) = true ∧
    (st false 0x3000 (r2 3 5) 0x3000 [0x03, 0x00, 0x01]).fetchable 0x3000 3 = true ∧
    decode OpcodeMap.default ((st false 0x3000 (r2 3 5) 0x3000 [0x03, 0x00, 0x01]).bytesAt 0x3000 3) =
      .ok (.sub 0 1, []) := ⟨rfl, by decide, rfl⟩

theorem witness_HaltedEngineHasNoStep : (haltNormally State.reset).running = false := rfl

/-- The opcode byte of an entry in the privileged region, and the last operand byte past `MEM_SIZE`. -/
theorem witness_DeniedFetchHaltsAtTheDeniedByte :
    ((st false 0x2000 (r2 0 0) 0 []).running = true ∧
      (st false 0x2000 (r2 0 0) 0 []).FetchesByte 0 ∧
      (st false 0x2000 (r2 0 0) 0 []).fetchable 0x2000 0 = true ∧
      (st false 0x2000 (r2 0 0) 0 []).Denies (0x2000 + BitVec.ofNat 16 0) .privilege) ∧
    ((under (small 0x8000) (st true 0x7FFD (r2 0 0) 0x7FFD [0x06, 0, 0x30])).running = true ∧
      (under (small 0x8000) (st true 0x7FFD (r2 0 0) 0x7FFD [0x06, 0, 0x30])).FetchesByte 3 ∧
      (under (small 0x8000) (st true 0x7FFD (r2 0 0) 0x7FFD [0x06, 0, 0x30])).fetchable 0x7FFD 3 =
        true ∧
      (under (small 0x8000) (st true 0x7FFD (r2 0 0) 0x7FFD [0x06, 0, 0x30])).Denies
        (0x7FFD + BitVec.ofNat 16 3) .outOfBounds) :=
  ⟨⟨rfl, .inl rfl, rfl, by decide⟩, rfl, .inr ⟨.store, by decide, by decide⟩, by decide, by decide⟩

theorem witness_UnknownOpcodeByteHaltsTheEngine :
    State.reset.running = true ∧ allowed State.reset.cfg State.reset.pc State.reset.priv = true ∧
    ∀ m, State.reset.cfg.opcode.get m ≠ State.reset.mem.read State.reset.pc.toNat :=
  ⟨rfl, by decide, fun m => by cases m <;> decide⟩

/-- For `PcAfterAStepIsThatOfTheTable` and the clauses of `StepWritesAtMostOneThing`: an instruction that
writes a register, a store, and a step that halts. -/
theorem witness_steps :
    ((∃ t, step (st false 0x3000 (r2 3 5) 0x3000 [0x03, 0x00, 0x01]) = .next t) ∧
      (st false 0x3000 (r2 3 5) 0x3000 [0x03, 0x00, 0x01]).AboutToRun (.sub 0 1)) ∧
    ((∃ t, step (st false 0x3000 (r2 7 0) 0x3000 [0x06, 0x00, 0x20, 0x01]) = .next t) ∧
      (st false 0x3000 (r2 7 0) 0x3000 [0x06, 0x00, 0x20, 0x01]).AboutToRun (.store 0 0x2001)) ∧
    (∃ t, step (st false 0x3000 (r2 0 0) 0x3000 [0x08]) = .next t ∧ t.running = false) :=
  ⟨⟨⟨_, rfl⟩, rfl, by decide, rfl⟩, ⟨⟨_, rfl⟩, rfl, by decide, rfl⟩, _, rfl, rfl⟩

/-- For the clauses of `StepWritesAtMostOneThing` about no store and no instruction: a denied fetch. -/
theorem witness_denied_fetch_runs_no_instruction :
    (∃ t, step (st false 0x2000 (r2 0 0) 0 []) = .next t ∧ t.running = false) ∧
    ∀ i, ¬ (st false 0x2000 (r2 0 0) 0 []).AboutToRun i :=
  ⟨⟨_, rfl, rfl⟩, not_aboutToRun_of_denied (k := 0) (.inl rfl) rfl (by decide)⟩

/-- For the two clauses of `ReadsGoThroughTheGate` and `WritesGoThroughTheGate`, at the gate's edges. -/
theorem witness_gate_clauses :
    (st false 0 (r2 0 0) 0 []).Inv ∧
    ((0x2001 : Addr).toNat < Config.default.memSize ∧
      Config.default.privEnd.toNat < (0x2001 : Addr).toNat) ∧
    ¬((0x2000 : Addr).toNat < Config.default.memSize ∧
      (false = true ∨ Config.default.privEnd.toNat < (0x2000 : Addr).toNat)) ∧
    ¬((0x8000 : Addr).toNat < (small 0x8000).memSize ∧
      (true = true ∨ (small 0x8000).privEnd.toNat < (0x8000 : Addr).toNat)) := by decide

/-- For `DenialsRecordTheirReason`, `DeniedStoreHaltsTheEngine` and `DeniedLoadHaltsTheEngine`: both
reasons, at their edges. -/
theorem witness_Denies :
    (st false 0 (r2 0 0) 0 []).Denies 0x2000 .privilege ∧
    (under (small 0x8000) (st true 0 (r2 0 0) 0 [])).Denies 0x8000 .outOfBounds ∧
    (7 : Byte).toNat < Config.default.nRegs := by decide

/-- For `StoreIsSeenByTheNextFetch`, `StoreWritesTheOneByte` and `LoadMemReadsTheOneByte`. -/
theorem witness_allowed_access :
    (st false 0x3000 (r2 7 0) 0x3000 [0x06]).Inv ∧
    (7 : Byte).toNat < (st false 0x3000 (r2 7 0) 0x3000 [0x06]).cfg.nRegs ∧
    allowed (st false 0x3000 (r2 7 0) 0x3000 [0x06]).cfg 0x2001
      (st false 0x3000 (r2 7 0) 0x3000 [0x06]).priv = true := by decide

/-- For `LoadImmWritesTheImmediate`, `AddWritesTheSumModulo256`, `SubWritesTheDifferenceModulo256`,
`MlpWritesTheProductModulo256`, `DivWritesTheUnsignedQuotient` and `SameRegisterArithmetic`. -/
theorem witness_registers :
    (st false 0x3000 [255, 0, 0, 0, 0, 0, 0, 2] 0x3000 []).Inv ∧
    (0 : Byte).toNat < Config.default.nRegs ∧ (7 : Byte).toNat < Config.default.nRegs ∧
    readReg (st false 0x3000 [255, 0, 0, 0, 0, 0, 0, 2] 0x3000 []) 7 ≠ 0 := by decide

/-- Both values of the policy. -/
theorem witness_DivByZeroFollowsThePolicy :
    (readReg State.reset 7 = 0 ∧ (0 : Byte).toNat < State.reset.cfg.nRegs ∧
      (7 : Byte).toNat < State.reset.cfg.nRegs ∧ State.reset.cfg.divZeroPolicy = .fault) ∧
    (readReg (under { Config.default with divZeroPolicy := .undefined } State.reset) 7 = 0 ∧
      (under { Config.default with divZeroPolicy := .undefined } State.reset).cfg.divZeroPolicy =
        .undefined) := by
  decide

theorem test_div_by_zero_is_refused_where_the_policy_says_so :
    execDiv 0 7 (under { Config.default with divZeroPolicy := .undefined } State.reset) =
      .refused .divByZeroUndefined := rfl

/-- An invalid `src` after a valid `dst`, at the first invalid index. -/
theorem witness_InvalidRegisterIsReportedFirst :
    (Instr.div 7 8).regFields = [7] ++ 8 :: [] ∧
    (∀ g ∈ ([7] : List Byte), g.toNat < State.reset.cfg.nRegs) ∧
    State.reset.cfg.nRegs ≤ (8 : Byte).toNat := by decide

/-- For `ModeAndConfigurationNeverChange` and `NonPrivilegedRunsCannotChangeThePrivilegedRegion`: a run
of two steps. -/
theorem witness_runs :
    (st false 0x3000 (r2 0 0) 0x3000 [0x01, 0x00, 0x07, 0x08]).priv = false ∧
    ∃ t, runSteps 2 (st false 0x3000 (r2 0 0) 0x3000 [0x01, 0x00, 0x07, 0x08]) = .next t ∧
      t.haltReason = .haltInstr := ⟨rfl, _, rfl, rfl⟩

/-- Both ends: `HALT`, and a fault. -/
theorem witness_OnlyHaltOrAFaultEndsARun :
    (∃ t, step (st false 0x3000 (r2 0 0) 0x3000 [0x08]) = .next t ∧ t.running = false ∧
      t.haltReason = .haltInstr) ∧
    (∃ t, step (st false 0x3000 (r2 0 0) 0x3000 [0x05, 0, 1]) = .next t ∧ t.running = false ∧
      t.haltReason = .divByZero) :=
  ⟨⟨_, rfl, rfl, rfl⟩, _, rfl, rfl, rfl⟩

/-- An allowed store, a refused division, and a halted engine. -/
theorem witness_ModesDifferOnlyInTheGate :
    (∃ t, step (st false 0x3000 (r2 7 0) 0x3000 [0x06, 0x00, 0x20, 0x01]) = .next t ∧
      t.haltReason ≠ .fetchDenied ∧ t.haltReason ≠ .dataReadDenied ∧
      t.haltReason ≠ .dataWriteDenied) ∧
    step (under { Config.default with divZeroPolicy := .undefined }
      (st false 0x3000 (r2 7 0) 0x3000 [0x05, 0x00, 0x01])) = .refused .divByZeroUndefined ∧
    step (haltNormally (st false 0x3000 (r2 0 0) 0x3000 [])) = .fault .halted :=
  ⟨⟨_, rfl, by decide, by decide, by decide⟩, rfl, rfl⟩

/-- Two states that differ at 0x2000 only. -/
theorem witness_NonPrivilegedRunsCannotReadThePrivilegedRegion :
    (st false 0x3000 (r2 0 0) 0x2000 [1]).Inv ∧ (st false 0x3000 (r2 0 0) 0x2000 [2]).Inv ∧
    SameButPrivileged (st false 0x3000 (r2 0 0) 0x2000 [1]) (st false 0x3000 (r2 0 0) 0x2000 [2]) := by
  refine ⟨by decide, by decide, rfl, rfl, rfl, rfl, rfl, rfl, rfl, rfl, fun a ha => ?_⟩
  have ha : 8192 < a := ha
  have h1 : a ≠ 0x2000 := by omega
  show Memory.read [(0x2000, (2 : Byte))] a = Memory.read [(0x2000, (1 : Byte))] a
  simp [Memory.read, h1]

/-- An entry above `PRIV_END`, and one in the privileged region. -/
theorem witness_EveryNonPrivilegedRunHalts :
    ((st false 0x2001 (r2 0 0) 0 []).running = true ∧ (st false 0x2001 (r2 0 0) 0 []).priv = false) ∧
    ((st false 0x2000 (r2 0 0) 0 []).running = true ∧ (st false 0x2000 (r2 0 0) 0 []).priv = false) := by
  decide

/-- A step that raises `pc`, and the one that wraps it to 0x0000. -/
theorem witness_NonPrivilegedStepRaisesPc :
    (∃ t, step (st false 0x3000 (r2 3 5) 0x3000 [0x03, 0x00, 0x01]) = .next t ∧
      t.running = true ∧ t.pc = 0x3003) ∧
    (∃ t, step (st false 0xFFFD (r2 3 5) 0xFFFD [0x03, 0x00, 0x01]) = .next t ∧
      t.running = true ∧ t.pc = 0x0000) :=
  ⟨⟨_, rfl, rfl, rfl⟩, _, rfl, rfl, rfl⟩

theorem witness_WrappedNonPrivilegedFetchIsDenied :
    (st false 0xFFFF (r2 0 0) 0xFFFF [0x08]).Inv ∧
    (st false 0xFFFF (r2 0 0) 0xFFFF [0x08]).priv = false ∧
    (st false 0xFFFF (r2 0 0) 0xFFFF [0x08]).pc = 0xFFFF ∧
    allowed (st false 0xFFFF (r2 0 0) 0xFFFF [0x08]).cfg
      (st false 0xFFFF (r2 0 0) 0xFFFF [0x08]).pc
      (st false 0xFFFF (r2 0 0) 0xFFFF [0x08]).priv = true := by decide

end Sys2Proof.Tests
end

section
/-! The statements about the start of a run (R200, R201): which state a start gives, and that it meets
the invariant. -/

namespace Sys2Proof.Machine

/-- What a start can do, said once (R200, R201): it gives a state exactly when the image fits, and then
the state of R202. -/
theorem start_eq_some_iff (c : Config) (img : List Byte) (org entry : Addr) (privMode : Bool)
    (s : State) :
    start c img org entry privMode = some s ↔
      org.toNat + img.length ≤ c.memSize ∧
      s = { cfg := c, regs := List.replicate c.nRegs 0, pc := entry, running := true,
            priv := privMode, haltReason := .none, faultInfo := none,
            mem := loadBytes [] org.toNat img, events := [] } := by
  unfold start
  split
  · next hover => simp [Nat.not_le.mpr hover]
  · next hfits => simp [Nat.not_lt.mp hfits, eq_comm]

/-- What a start gives meets the invariant: loading an image that fits keeps the empty memory canonical
and below `MEM_SIZE`, and no halt reason, information or event is recorded yet. -/
theorem inv_of_start {c : Config} {img : List Byte} {org entry : Addr} {privMode : Bool} {s : State}
    (hc : c.Valid) (h : start c img org entry privMode = some s) : s.Inv := by
  obtain ⟨hfits, rfl⟩ := (start_eq_some_iff ..).mp h
  have hwf : (loadBytes [] org.toNat img).wf := loadBytes_wf _ _ _ (by decide)
  have hlt : ∀ cell ∈ loadBytes [] org.toNat img, cell.1 < c.memSize :=
    loadBytes_lt _ _ _ _ (by simp) hfits
  exact ⟨hc, List.length_replicate, hwf, hlt, by simp, rfl, rfl⟩

/-- Settles O5, from the start inversion and the laws of loading an image. -/
theorem everyStartMeetsTheInvariant : Obligations.EveryStartMeetsTheInvariant :=
  fun _ _ _ _ _ _ hc h => inv_of_start hc h

/-- Settles O3: the empty image fits, and loading it leaves memory empty; the rest is the defaults of
R10 and R11. -/
theorem resetIsTheDefaultStart : Obligations.ResetIsTheDefaultStart := by
  have hstart : start Config.default [] 0x0000 0x0000 true = some State.reset :=
    (start_eq_some_iff ..).mpr ⟨by decide, rfl⟩
  exact ⟨hstart, rfl, rfl, rfl, rfl, rfl, rfl, rfl⟩

end Sys2Proof.Machine
end

section
/-! The statements about the state (R26, R30 to R37): the reset state meets the invariant, every step
keeps it, what no step changes, and which instruction a step runs. -/

namespace Sys2Proof.Machine

/-! ### What no step changes -/

/-- The mode, the configuration and the number of registers are the same in both states. -/
abbrev SameSetup (s t : State) : Prop :=
  t.priv = s.priv ∧ t.cfg = s.cfg ∧ t.regs.length = s.regs.length

theorem SameSetup.trans {s t u : State} (hst : SameSetup s t) (htu : SameSetup t u) :
    SameSetup s u := by
  obtain ⟨hpriv, hcfg, hregs⟩ := hst
  obtain ⟨hpriv', hcfg', hregs'⟩ := htu
  exact ⟨hpriv'.trans hpriv, hcfg'.trans hcfg, hregs'.trans hregs⟩

theorem ExecEnds.sameSetup {i : Instr} {s t : State} (h : ExecEnds i s (.next t)) :
    SameSetup s t := by
  cases h with
  | wroteReg d v => exact ⟨rfl, rfl, writeReg_regs_length s d v⟩
  | stored | halted | faulted => exact ⟨rfl, rfl, rfl⟩

theorem step_sameSetup {s t : State} (h : step s = .next t) : SameSetup s t := by
  rcases step_next_cases h with ⟨i, -, hends⟩ | ⟨k, -, -, -, rfl⟩
  · exact hends.sameSetup
  · simp [SameSetup]

/-- Settles O37, by induction on the number of steps. -/
theorem modeAndConfigurationNeverChange : Obligations.ModeAndConfigurationNeverChange := by
  intro k
  induction k with
  | zero =>
    intro s t h
    cases h
    exact ⟨rfl, rfl, rfl⟩
  | succ k ih =>
    intro s t h
    obtain ⟨u, hstep, hrun⟩ := runSteps_succ_cases h
    exact (step_sameSetup hstep).trans (ih u t hrun)

/-! ### The invariant under each update of the state -/

/-- A running state that meets the invariant has recorded nothing yet (R32, R193). -/
theorem nothing_recorded_of_running {s : State} (h : s.Inv) (hr : s.running = true) :
    s.haltReason = .none ∧ s.faultInfo = none ∧ s.events = [] := by
  obtain ⟨-, -, -, -, hrun, hfits, hevents⟩ := h
  have hreason := hrun.mp hr
  rw [hreason] at hfits hevents
  refine ⟨hreason, ?_, hevents⟩
  cases hi : s.faultInfo with
  | none => rfl
  | some info => rw [hi] at hfits; cases hfits

/-- The invariant does not speak of `pc`. -/
theorem inv_advance {s : State} (n : Nat) (h : s.Inv) : (advance n s).Inv := h

theorem inv_writeReg {s : State} (i v : Byte) (h : s.Inv) : (writeReg s i v).Inv := by
  obtain ⟨hcfg, hregs, hrest⟩ := h
  exact ⟨hcfg, (writeReg_regs_length s i v).trans hregs, hrest⟩

/-- A store that the gate allows lies below `MEM_SIZE`, so memory stays within its bound. -/
theorem inv_storeByte {s : State} {a : Addr} (v : Byte) (h : s.Inv)
    (ha : allowed s.cfg a s.priv = true) : (storeByte s a v).Inv := by
  obtain ⟨hcfg, hregs, hwf, hbound, hrest⟩ := h
  have hlt : a.toNat < s.cfg.memSize := ((allowed_iff ..).mp ha).1
  exact ⟨hcfg, hregs, Memory.wf_write _ _ v hwf, Memory.write_lt hlt hbound, hrest⟩

theorem inv_haltNormally {s : State} (h : s.Inv) (hr : s.running = true) :
    (haltNormally s).Inv := by
  obtain ⟨-, hinfo, hevents⟩ := nothing_recorded_of_running h hr
  obtain ⟨hcfg, hregs, hwf, hbound, -⟩ := h
  refine ⟨hcfg, hregs, hwf, hbound, by simp, ?_, ?_⟩
  · rw [haltNormally_haltReason, haltNormally_faultInfo, hinfo]; rfl
  · rw [haltNormally_events, hevents]; rfl

/-- The event a fault appends is the only one: the run had none before (R193). -/
theorem inv_raiseFault {cause : HaltReason} {info : FaultInfo} {s : State} (h : s.Inv)
    (hr : s.running = true) (hfault : cause.isFault = true)
    (hfits : cause.fits (some info) = true) : (raiseFault cause info s).Inv := by
  obtain ⟨-, -, hevents⟩ := nothing_recorded_of_running h hr
  obtain ⟨hcfg, hregs, hwf, hbound, -⟩ := h
  have hne : cause ≠ .none := by rintro rfl; cases hfault
  refine ⟨hcfg, hregs, hwf, hbound, by simpa using hne, hfits, ?_⟩
  simp [hevents, eventsOf, hfault]

theorem inv_fetchDenied {s : State} (reason : DenyReason) (h : s.Inv) (hr : s.running = true) :
    (fetchDenied reason s).Inv := by
  unfold fetchDenied
  split
  · exact inv_raiseFault (inv_advance 1 h) hr rfl rfl
  · exact inv_raiseFault h hr rfl rfl

/-! ### The invariant along a run -/

/-- However an instruction of a running engine ends, the state it leaves meets the invariant. -/
theorem ExecEnds.inv {i : Instr} {s t : State} (hends : ExecEnds i s (.next t)) (h : s.Inv)
    (hr : s.running = true) : t.Inv := by
  cases hends with
  | wroteReg d v => exact inv_writeReg d v h
  | stored reg a _ _ ha => exact inv_storeByte _ h ha
  | halted => exact inv_haltNormally h hr
  | faulted cause info hfault hfits => exact inv_raiseFault h hr hfault hfits

/-- Settles O6, by the ways a step can get to its next state. -/
theorem everyStepKeepsTheInvariant : Obligations.EveryStepKeepsTheInvariant := by
  intro s t h hstep
  have hr := running_of_step hstep
  rcases step_next_cases hstep with ⟨i, -, hends⟩ | ⟨k, -, -, -, rfl⟩
  · exact hends.inv (inv_advance i.length h) hr
  · exact inv_fetchDenied _ (inv_advance k h) hr

/-- Settles O4: the reset state is the start of an empty image under the default configuration, which
is valid. -/
theorem resetMeetsTheInvariant : Obligations.ResetMeetsTheInvariant := by
  obtain ⟨hstart, -⟩ := resetIsTheDefaultStart
  exact inv_of_start (by decide) hstart

/-! ### The instruction a step runs -/

/-- Settles O13: the three hypotheses are `AboutToRun`, and `advance` writes `pc` alone. -/
theorem stepRunsTheInstructionAtPc : Obligations.StepRunsTheInstructionAtPc :=
  fun _ _ hrun hfetch hdecode => ⟨step_of_aboutToRun ⟨hrun, hfetch, hdecode⟩, rfl⟩

end Sys2Proof.Machine
end

section
/-! The statements about memory and its gate (R40 to R57): what the two accesses answer, that a store
is seen by the next fetch, and the central invariant of R47: a non-privileged run neither changes the
privileged region nor learns anything of it. -/

namespace Sys2Proof.Machine

/-! ### The two accesses -/

theorem mem_wf_of_inv {s : State} (h : s.Inv) : s.mem.wf := by
  obtain ⟨-, -, hwf, -⟩ := h
  exact hwf

/-- The gate's denial is the negation of R42's condition. -/
theorem not_allowed_iff (c : Config) (a : Addr) (p : Bool) :
    allowed c a p = false ↔ ¬(a.toNat < c.memSize ∧ (p = true ∨ c.privEnd.toNat < a.toNat)) := by
  rw [← allowed_iff, Bool.not_eq_true]

theorem memRead_eq_error_iff {s : State} {a : Addr} {r : DenyReason} :
    memRead s a = .error r ↔ allowed s.cfg a s.priv = false ∧ r = denyReason s.cfg a := by
  cases ha : allowed s.cfg a s.priv with
  | false => simp [memRead_of_denied ha, eq_comm]
  | true => simp [memRead_of_allowed ha]

theorem memWrite_eq_error_iff {s : State} {a : Addr} {v : Byte} {r : DenyReason} :
    memWrite s a v = .error r ↔ allowed s.cfg a s.priv = false ∧ r = denyReason s.cfg a := by
  cases ha : allowed s.cfg a s.priv with
  | false => simp [memWrite_of_denied ha, eq_comm]
  | true => simp [memWrite_of_allowed ha]

/-- A `STORE` of a valid register at an allowed address completes (R131). -/
theorem exec_store_of_allowed {s : State} {reg : Byte} {a : Addr} (hreg : reg.toNat < s.cfg.nRegs)
    (ha : allowed s.cfg a s.priv = true) :
    exec (.store reg a) s = .next (storeByte s a (readReg s reg)) := by
  rw [exec, execStore, withValidRegs_of_valid (by simpa using hreg), memWrite_of_allowed ha]

/-- In the non-privileged mode the gate allows only what lies above the privileged region (R42). -/
theorem privEnd_lt_of_allowed {s : State} {a : Addr} (hpriv : s.priv = false)
    (ha : allowed s.cfg a s.priv = true) : s.cfg.privEnd.toNat < a.toNat := by
  obtain ⟨-, hmode⟩ := (allowed_iff ..).mp ha
  exact hmode.resolve_left (by simp [hpriv])

/-- Settles O19, from the gate's condition. -/
theorem readsGoThroughTheGate : Obligations.ReadsGoThroughTheGate := by
  refine ⟨fun s a => ⟨fun h => ?_, fun h => ?_⟩, fun a => ?_, fun a => ?_⟩
  · exact memRead_of_allowed ((allowed_iff ..).mpr h)
  · exact ⟨_, memRead_of_denied ((not_allowed_iff ..).mpr h)⟩
  · have hlt := a.isLt
    have hprivEnd : Config.default.privEnd.toNat = 0x2000 := rfl
    have hmemSize : Config.default.memSize = 65536 := rfl
    simp only [allowed_iff, hprivEnd, hmemSize, Bool.false_eq_true, false_or]
    omega
  · exact (allowed_iff ..).mpr ⟨a.isLt, .inl rfl⟩

/-- Settles O20, from the laws of a read after a write. -/
theorem writesGoThroughTheGate : Obligations.WritesGoThroughTheGate := by
  intro s a v hinv
  constructor
  · intro h
    exact ⟨storeByte s a v, memWrite_of_allowed ((allowed_iff ..).mpr h),
      Memory.read_write_same _ _ _ (mem_wf_of_inv hinv),
      fun b hb => Memory.read_write_other _ _ _ _ hb,
      rfl, rfl, rfl, rfl, rfl, rfl, rfl, rfl⟩
  · intro h
    exact ⟨_, memWrite_of_denied ((not_allowed_iff ..).mpr h)⟩

/-- Settles O21: `Denies` and both accesses say the same of the gate. -/
theorem denialsRecordTheirReason : Obligations.DenialsRecordTheirReason :=
  fun s a _ r => ⟨(denies_iff s a r).trans memRead_eq_error_iff.symm,
    (denies_iff s a r).trans memWrite_eq_error_iff.symm⟩

/-- Settles O22: the stored byte is allowed to the fetch as it was to the store, and reads back. -/
theorem storeIsSeenByTheNextFetch : Obligations.StoreIsSeenByTheNextFetch := by
  intro s reg a hinv hreg ha
  refine ⟨_, exec_store_of_allowed hreg ha, ?_⟩
  rw [fetch8_of_allowed ha, storeByte_mem, Memory.read_write_same _ _ _ (mem_wf_of_inv hinv)]
  rfl

/-! ### No byte of the privileged region changes -/

/-- Every byte of the privileged region `[0, PRIV_END]` reads as before. -/
abbrev SamePrivilegedRegion (s t : State) : Prop :=
  ∀ a : Nat, a ≤ s.cfg.privEnd.toNat → t.mem.read a = s.mem.read a

/-- The one instruction that writes memory is an allowed `STORE`, and its address lies above. -/
theorem ExecEnds.samePrivilegedRegion {i : Instr} {s t : State} (hends : ExecEnds i s (.next t))
    (hpriv : s.priv = false) : SamePrivilegedRegion s t := by
  intro b hb
  cases hends with
  | wroteReg | halted | faulted => rfl
  | stored reg a _ _ ha =>
    have hlt := privEnd_lt_of_allowed hpriv ha
    exact Memory.read_write_other _ _ _ _ (by omega)

theorem step_samePrivilegedRegion {s t : State} (hpriv : s.priv = false)
    (hstep : step s = .next t) : SamePrivilegedRegion s t := by
  rcases step_next_cases hstep with ⟨i, -, hends⟩ | ⟨k, -, -, -, rfl⟩
  · exact hends.samePrivilegedRegion hpriv
  · intro a _
    rw [fetchDenied_mem, advance_mem]

/-- Settles O42, by induction on the number of steps; the mode and `PRIV_END` stay as they are. -/
theorem nonPrivilegedRunsCannotChangeThePrivilegedRegion :
    Obligations.NonPrivilegedRunsCannotChangeThePrivilegedRegion := by
  intro k
  induction k with
  | zero =>
    intro s t _ h a _
    cases h
    rfl
  | succ k ih =>
    intro s t hpriv h a ha
    obtain ⟨u, hstep, hrun⟩ := runSteps_succ_cases h
    obtain ⟨hpriv', hcfg, -⟩ := step_sameSetup hstep
    calc t.mem.read a
      _ = u.mem.read a := ih u t (hpriv'.trans hpriv) hrun a (by rwa [hcfg])
      _ = s.mem.read a := step_samePrivilegedRegion hpriv hstep a ha

/-! ### Related outcomes -/

/-- The three ways two outcomes can be related. -/
theorem relatedOutcome_iff {R : State → State → Prop} {x y : Host.Outcome State Fault Refusal} :
    RelatedOutcome R x y ↔
      (∃ t v, x = .next t ∧ y = .next v ∧ R t v) ∨
      (∃ f, x = .fault f ∧ y = .fault f) ∨
      (∃ r, x = .refused r ∧ y = .refused r) := by
  constructor
  · intro h
    match x, y, h with
    | .next t, .next v, h => exact .inl ⟨t, v, rfl, rfl, h⟩
    | .fault f, .fault _, rfl => exact .inr (.inl ⟨f, rfl, rfl⟩)
    | .refused r, .refused _, rfl => exact .inr (.inr ⟨r, rfl, rfl⟩)
  · rintro (⟨t, v, rfl, rfl, h⟩ | ⟨f, rfl, rfl⟩ | ⟨r, rfl, rfl⟩)
    exacts [h, rfl, rfl]

/-- Related outcomes stay related under a relation that holds of their next states. -/
theorem RelatedOutcome.mono {R Q : State → State → Prop} {x y : Host.Outcome State Fault Refusal}
    (h : RelatedOutcome R x y)
    (himp : ∀ t v, x = .next t → y = .next v → R t v → Q t v) : RelatedOutcome Q x y :=
  relatedOutcome_iff.mpr <| (relatedOutcome_iff.mp h).imp_left fun ⟨t, v, hx, hy, hR⟩ =>
    ⟨t, v, hx, hy, himp t v hx hy hR⟩

/-- The register check relates two states of one configuration, if its fault and the rest do. -/
protected theorem RelatedOutcome.withValidRegs {R : State → State → Prop} {fields : List Byte}
    {s u : State} {x y : Host.Outcome State Fault Refusal} (hcfg : u.cfg = s.cfg)
    (hfault : ∀ cause info, R (raiseFault cause info s) (raiseFault cause info u))
    (hrest : RelatedOutcome R x y) :
    RelatedOutcome R (withValidRegs fields s x) (withValidRegs fields u y) := by
  unfold withValidRegs
  rw [hcfg]
  cases firstInvalid s.cfg.nRegs fields with
  | none => exact hrest
  | some f => exact hfault _ _

/-- A relation that one step keeps, any number of steps keeps. -/
theorem runSteps_related {R : State → State → Prop}
    (hstep : ∀ s u, R s u → RelatedOutcome R (step s) (step u)) (k : Nat) {s u : State}
    (h : R s u) : RelatedOutcome R (runSteps k s) (runSteps k u) := by
  induction k generalizing s u with
  | zero => exact h
  | succ k ih =>
    rcases relatedOutcome_iff.mp (hstep s u h) with
      ⟨t, v, hs, hu, hR⟩ | ⟨f, hs, hu⟩ | ⟨r, hs, hu⟩
    · rw [runSteps_succ_of_next k hs, runSteps_succ_of_next k hu]
      exact ih hR
    · rw [runSteps_succ_of_fault k hs, runSteps_succ_of_fault k hu]
      rfl
    · rw [runSteps_succ_of_refused k hs, runSteps_succ_of_refused k hu]
      rfl

/-! ### States that differ in the privileged region alone -/

/-- `s` with the given memory. -/
def State.withMem (s : State) (m : Memory) : State := { s with mem := m }

theorem sameButPrivileged_withMem {s : State} {m : Memory}
    (hm : ∀ a : Nat, s.cfg.privEnd.toNat < a → m.read a = s.mem.read a) :
    SameButPrivileged s (s.withMem m) :=
  ⟨rfl, rfl, rfl, rfl, rfl, rfl, rfl, rfl, hm⟩

/-- The second state is the first with another memory, which agrees above the privileged region. -/
theorem SameButPrivileged.exists_withMem {s u : State} (h : SameButPrivileged s u) :
    ∃ m, u = s.withMem m ∧
      ∀ a : Nat, s.cfg.privEnd.toNat < a → m.read a = s.mem.read a := by
  obtain ⟨cfg, regs, pc, running, priv, haltReason, faultInfo, mem, events⟩ := u
  obtain ⟨rfl, rfl, rfl, rfl, rfl, rfl, rfl, rfl, hmem⟩ := h
  exact ⟨mem, rfl, hmem⟩

/-- An update that neither reads nor writes memory, nor the configuration, keeps the relation. -/
theorem SameButPrivileged.map {s u : State} (h : SameButPrivileged s u) (f : State → State)
    (hf : ∀ m, f (s.withMem m) = (f s).withMem m) (hcfg : (f s).cfg = s.cfg)
    (hmem : (f s).mem = s.mem) : SameButPrivileged (f s) (f u) := by
  obtain ⟨m, rfl, hm⟩ := h.exists_withMem
  rw [hf]
  exact sameButPrivileged_withMem (by rwa [hcfg, hmem])

section
variable {s u : State} (h : SameButPrivileged s u)
include h

theorem SameButPrivileged.cfg_eq : u.cfg = s.cfg := h.1

theorem SameButPrivileged.pc_eq : u.pc = s.pc := by
  obtain ⟨-, -, hpc, -⟩ := h
  exact hpc

theorem SameButPrivileged.running_eq : u.running = s.running := by
  obtain ⟨-, -, -, hrun, -⟩ := h
  exact hrun

protected theorem SameButPrivileged.advance (n : Nat) :
    SameButPrivileged (advance n s) (advance n u) :=
  h.map (advance n) (fun _ => rfl) rfl rfl

protected theorem SameButPrivileged.writeReg (d v : Byte) :
    SameButPrivileged (writeReg s d v) (writeReg u d v) :=
  h.map (writeReg · d v) (fun _ => rfl) rfl rfl

protected theorem SameButPrivileged.aluResult (f : Byte → Byte → Byte) (dst src : Byte) :
    SameButPrivileged (aluResult f dst src s) (aluResult f dst src u) :=
  h.map (aluResult f dst src) (fun _ => rfl) rfl rfl

protected theorem SameButPrivileged.raiseFault (cause : HaltReason) (info : FaultInfo) :
    SameButPrivileged (raiseFault cause info s) (raiseFault cause info u) :=
  h.map (raiseFault cause info) (fun _ => rfl) rfl rfl

protected theorem SameButPrivileged.haltNormally :
    SameButPrivileged (haltNormally s) (haltNormally u) :=
  h.map haltNormally (fun _ => rfl) rfl rfl

protected theorem SameButPrivileged.fetchDenied (r : DenyReason) :
    SameButPrivileged (fetchDenied r s) (fetchDenied r u) := by
  unfold fetchDenied
  rw [h.cfg_eq, h.pc_eq]
  split
  · exact (h.advance 1).raiseFault _ _
  · exact h.raiseFault _ _

/-- The same byte stored in both: at its address both read it, in canonical form, and elsewhere as
before. -/
protected theorem SameButPrivileged.storeByte (hs : s.mem.wf) (hu : u.mem.wf) (a : Addr)
    (v : Byte) :
    SameButPrivileged (storeByte s a v) (storeByte u a v) := by
  obtain ⟨hcfg, hregs, hpc, hrun, hpriv, hreason, hinfo, hevents, hmem⟩ := h
  refine ⟨hcfg, hregs, hpc, hrun, hpriv, hreason, hinfo, hevents, fun b hb => ?_⟩
  rw [storeByte_mem, storeByte_mem]
  by_cases hab : b = a.toNat
  · rw [hab, Memory.read_write_same _ _ _ hs, Memory.read_write_same _ _ _ hu]
  · rw [Memory.read_write_other _ _ _ _ hab, Memory.read_write_other _ _ _ _ hab]
    exact hmem b hb

theorem SameButPrivileged.readReg_eq (r : Byte) : readReg u r = readReg s r := by
  obtain ⟨-, hregs, -⟩ := h
  rw [readReg, hregs, readReg]

/-- The gate decides alike: it does not look at memory (R42). -/
theorem SameButPrivileged.allowed_eq (a : Addr) :
    allowed u.cfg a u.priv = allowed s.cfg a s.priv := by
  obtain ⟨hcfg, -, -, -, hpriv, -⟩ := h
  rw [hcfg, hpriv]

theorem SameButPrivileged.fetchable_eq (a : Addr) (n : Nat) :
    u.fetchable a n = s.fetchable a n := by
  simp only [State.fetchable, h.allowed_eq]

/-! ### What a non-privileged access reads -/

variable (hpriv : s.priv = false)
include hpriv

/-- What the gate lets a non-privileged access read is the same in both. -/
theorem SameButPrivileged.read_eq {a : Addr} (ha : allowed s.cfg a s.priv = true) :
    u.mem.read a.toNat = s.mem.read a.toNat := by
  obtain ⟨-, -, -, -, -, -, -, -, hmem⟩ := h
  exact hmem _ (privEnd_lt_of_allowed hpriv ha)

theorem SameButPrivileged.memRead_eq (a : Addr) : memRead u a = memRead s a := by
  unfold memRead
  rw [h.allowed_eq]
  split
  · next ha => rw [h.read_eq hpriv ha]
  · rw [h.cfg_eq]

theorem SameButPrivileged.bytesAt_eq {a : Addr} {n : Nat} (hf : s.fetchable a n = true) :
    u.bytesAt a n = s.bytesAt a n := by
  induction n generalizing a with
  | zero => rfl
  | succ n ih =>
    rw [fetchable_succ, Bool.and_eq_true] at hf
    obtain ⟨ha, hrest⟩ := hf
    rw [bytesAt_succ, bytesAt_succ, h.read_eq hpriv ha, ih hrest]

theorem SameButPrivileged.aboutToRun {i : Instr} (hi : s.AboutToRun i) : u.AboutToRun i := by
  obtain ⟨hrun, hf, hd⟩ := hi
  refine ⟨h.running_eq.trans hrun, ?_, ?_⟩
  · rw [h.pc_eq, h.fetchable_eq, hf]
  · rw [h.cfg_eq, h.pc_eq, h.bytesAt_eq hpriv hf, hd]

/-- The opcode byte, on which the operand bytes depend, was read through the gate. -/
theorem SameButPrivileged.fetchesByte {k : Nat} (hk : s.FetchesByte k)
    (hf : s.fetchable s.pc k = true) : u.FetchesByte k := by
  cases k with
  | zero => exact .inl rfl
  | succ k =>
    rw [fetchable_succ, Bool.and_eq_true] at hf
    obtain ⟨ha, -⟩ := hf
    obtain ⟨m, hm, hlt⟩ := hk.resolve_left (by omega)
    exact .inr ⟨m, by rw [h.cfg_eq, h.pc_eq, h.read_eq hpriv ha, hm], hlt⟩

end

/-! ### A non-privileged run learns nothing of the privileged region -/

section
variable {s u : State} (h : SameButPrivileged s u)
include h

/-- The shared handler of the arithmetic family, where it checks no divisor (R111). -/
theorem SameButPrivileged.related_alu (f : Byte → Byte → Byte) (dst src : Byte) :
    RelatedOutcome SameButPrivileged
      (withValidRegs [dst, src] s (.next (aluResult f dst src s)))
      (withValidRegs [dst, src] u (.next (aluResult f dst src u))) :=
  .withValidRegs h.cfg_eq h.raiseFault (h.aluResult f dst src)

theorem SameButPrivileged.related_divideByZero (src : Byte) :
    RelatedOutcome SameButPrivileged (divideByZero src s) (divideByZero src u) := by
  unfold divideByZero
  rw [h.cfg_eq]
  cases s.cfg.divZeroPolicy with
  | fault => exact h.raiseFault _ _
  | undefined => rfl

theorem SameButPrivileged.related_execDiv (dst src : Byte) :
    RelatedOutcome SameButPrivileged (execDiv dst src s) (execDiv dst src u) := by
  refine .withValidRegs h.cfg_eq h.raiseFault ?_
  rw [h.readReg_eq]
  split
  · exact h.related_divideByZero src
  · exact h.aluResult aluDiv dst src

theorem SameButPrivileged.related_execStore (hs : s.mem.wf) (hu : u.mem.wf) (reg : Byte)
    (a : Addr) :
    RelatedOutcome SameButPrivileged (execStore reg a s) (execStore reg a u) := by
  refine .withValidRegs h.cfg_eq h.raiseFault ?_
  have hallowed := h.allowed_eq a
  rw [h.readReg_eq]
  cases ha : allowed s.cfg a s.priv with
  | false =>
    rw [memWrite_of_denied ha, memWrite_of_denied (hallowed.trans ha), h.cfg_eq]
    exact h.raiseFault _ _
  | true =>
    rw [memWrite_of_allowed ha, memWrite_of_allowed (hallowed.trans ha)]
    exact h.storeByte hs hu a _

theorem SameButPrivileged.related_execLoadMem (hpriv : s.priv = false) (reg : Byte) (a : Addr) :
    RelatedOutcome SameButPrivileged (execLoadMem reg a s) (execLoadMem reg a u) := by
  refine .withValidRegs h.cfg_eq h.raiseFault ?_
  rw [h.memRead_eq hpriv]
  cases memRead s a with
  | error reason => exact h.raiseFault _ _
  | ok b => exact h.writeReg reg b

/-- Every instruction does alike on two states that differ in the privileged region alone. -/
theorem SameButPrivileged.related_exec (hs : s.mem.wf) (hu : u.mem.wf) (hpriv : s.priv = false)
    (i : Instr) : RelatedOutcome SameButPrivileged (exec i s) (exec i u) := by
  cases i with
  | loadImm reg imm => exact .withValidRegs h.cfg_eq h.raiseFault (h.writeReg reg imm)
  | add dst src => exact h.related_alu aluAdd dst src
  | sub dst src => exact h.related_alu aluSub dst src
  | mlp dst src => exact h.related_alu aluMlp dst src
  | div dst src => exact h.related_execDiv dst src
  | store reg a => exact h.related_execStore hs hu reg a
  | loadMem reg a => exact h.related_execLoadMem hpriv reg a
  | halt => exact h.haltNormally
  | unknown op =>
    rw [exec, exec, execUnknown, execUnknown, h.pc_eq]
    exact h.raiseFault _ _

/-- Every step does alike on them: both fetch the same instruction, or are denied the same byte of
it. -/
theorem SameButPrivileged.related_step (hs : s.mem.wf) (hu : u.mem.wf) (hpriv : s.priv = false) :
    RelatedOutcome SameButPrivileged (step s) (step u) := by
  have hrun := h.running_eq
  cases hr : s.running with
  | false =>
    rw [step_of_halted hr, step_of_halted (hrun.trans hr)]
    rfl
  | true =>
    rcases step_cases s hr with ⟨i, hi, hstep⟩ | ⟨k, hk, hf, hd, hstep⟩
    · rw [hstep, step_of_aboutToRun (h.aboutToRun hpriv hi)]
      exact (h.advance i.length).related_exec hs hu hpriv i
    · have hf' : u.fetchable u.pc k = true := by
        rw [h.pc_eq, h.fetchable_eq, hf]
      have hd' : allowed u.cfg (u.pc + BitVec.ofNat 16 k) u.priv = false := by
        rw [h.pc_eq, h.allowed_eq, hd]
      rw [hstep, step_of_denied (hrun.trans hr) (h.fetchesByte hpriv hk hf) hf' hd', h.cfg_eq,
        h.pc_eq]
      exact (h.advance k).fetchDenied _

end

/-- What every pair of the two runs' states satisfies: they differ in the privileged region alone,
and each step of both keeps that, since both meet the invariant and are non-privileged. -/
abbrev Indistinguishable (s u : State) : Prop :=
  s.Inv ∧ u.Inv ∧ s.priv = false ∧ SameButPrivileged s u

theorem related_step_of_indistinguishable (s u : State) (h : Indistinguishable s u) :
    RelatedOutcome Indistinguishable (step s) (step u) := by
  obtain ⟨hs, hu, hpriv, hsame⟩ := h
  have hrel := hsame.related_step (mem_wf_of_inv hs) (mem_wf_of_inv hu) hpriv
  refine hrel.mono fun t v ht hv htv => ?_
  obtain ⟨hpriv', -⟩ := step_sameSetup ht
  exact ⟨everyStepKeepsTheInvariant s t hs ht, everyStepKeepsTheInvariant u v hu hv,
    hpriv'.trans hpriv, htv⟩

/-- Settles O41: indistinguishable states step to indistinguishable states, so runs do. -/
theorem nonPrivilegedRunsCannotReadThePrivilegedRegion :
    Obligations.NonPrivilegedRunsCannotReadThePrivilegedRegion := by
  intro k s u hs hu hpriv hsame
  refine (runSteps_related related_step_of_indistinguishable k ⟨hs, hu, hpriv, hsame⟩).mono ?_
  rintro t v - - ⟨-, -, -, hrel⟩
  exact hrel

end Sys2Proof.Machine
end

section
/-! The statements about the encoding (R60 to R74): the decoder answers a mnemonic for its own opcode
byte alone, decoding and encoding undo each other, and each encoding has the length of R61. -/

namespace Sys2Proof

/-! ### What the encoder writes -/

/-- The one instruction term without a mnemonic is `unknown` (R71). -/
theorem Instr.eq_unknown_of_mnemonic {i : Instr} (h : i.mnemonic = none) :
    ∃ op, i = .unknown op := by
  cases i with
  | unknown op => exact ⟨op, rfl⟩
  | _ => cases h

/-- The shape of the encoding, lifted from the constructors to every instruction. -/
theorem encode_shape (i : Instr) : Laws.EncodeShape.Statement i := by
  cases i with
  | loadImm reg imm => exact Laws.EncodeShape.loadImm reg imm
  | add dst src => exact Laws.EncodeShape.add dst src
  | sub dst src => exact Laws.EncodeShape.sub dst src
  | mlp dst src => exact Laws.EncodeShape.mlp dst src
  | div dst src => exact Laws.EncodeShape.div dst src
  | store reg addr => exact Laws.EncodeShape.store reg addr
  | loadMem reg addr => exact Laws.EncodeShape.loadMem reg addr
  | halt => exact Laws.EncodeShape.halt
  | unknown op => exact Laws.EncodeShape.unknown op

/-- The encoding has as many bytes as the length lookup of R78 says. -/
theorem encode_length (o : OpcodeMap) (i : Instr) : (encode o i).length = i.length := by
  obtain ⟨hlength, -⟩ := encode_shape i o
  exact hlength

theorem encodeHead_of_mnemonic (o : OpcodeMap) {i : Instr} {m : Mnemonic}
    (h : i.mnemonic = some m) : encodeHead o i = o.get m := by
  obtain ⟨-, hhead⟩ := encode_shape i o
  exact Option.some.inj (hhead m h)

theorem encodeOperands_length {i : Instr} {m : Mnemonic} (h : i.mnemonic = some m) :
    (encodeOperands i).length = m.operandBytes := by
  cases i <;> cases h <;> rfl

/-! ### Operand bytes to operands and back -/

theorem assembleBytes_encodeOperands {i : Instr} {m : Mnemonic} (h : i.mnemonic = some m) :
    assembleBytes m (encodeOperands i) = i := by
  cases i with
  | store | loadMem =>
    cases h
    simp [assembleBytes, assemble, encodeOperands]
  | _ => cases h <;> rfl

/-- By the number of operand bytes of each format (R62 to R65). -/
theorem encodeOperands_assembleBytes {m : Mnemonic} {bs : List Byte}
    (hl : bs.length = m.operandBytes) : encodeOperands (assembleBytes m bs) = bs := by
  cases m with
  | halt => exact (List.length_eq_zero_iff.mp hl).symm
  | store | loadMem =>
    obtain ⟨reg, hi, lo, rfl⟩ := List.length_eq_three.mp hl
    simp [assembleBytes, assemble, encodeOperands]
  | _ =>
    obtain ⟨b1, b2, rfl⟩ := List.length_eq_two.mp hl
    rfl

/-! ### Which terms are well-formed -/

theorem Instr.wellFormed_of_mnemonic (o : OpcodeMap) {i : Instr} {m : Mnemonic}
    (h : i.mnemonic = some m) : i.wellFormed o = true := by
  cases i <;> cases h <;> rfl

/-- An unknown byte is well-formed exactly when the decoder knows no mnemonic for it. -/
theorem Instr.wellFormed_unknown_iff {o : OpcodeMap} {op : Byte} :
    (Instr.unknown op).wellFormed o = true ↔ decodeOpcode o op = none :=
  OpcodeMap.free_iff.trans decodeOpcode_eq_none_iff.symm

/-! ### The round trips -/

/-- What the decoder answers on a known opcode and its operand bytes, whatever bytes follow. -/
theorem decode_cons_append {o : OpcodeMap} {op : Byte} {m : Mnemonic} {bs : List Byte}
    (rest : List Byte) (h : decodeOpcode o op = some m) (hl : bs.length = m.operandBytes) :
    decode o (op :: (bs ++ rest)) = .ok (assembleBytes m bs, rest) := by
  simp [decode, h, ← hl]

/-- Settles O7: the first byte gives back the mnemonic, since `OPCODE` is injective, and the operand
bytes give back the operands. -/
theorem decodeOfEncodeIsTheInstruction : Obligations.DecodeOfEncodeIsTheInstruction := by
  intro o i rest hinj hwf
  cases hm : i.mnemonic with
  | none =>
    obtain ⟨op, rfl⟩ := i.eq_unknown_of_mnemonic hm
    exact decode_cons_unknown rest (Instr.wellFormed_unknown_iff.mp hwf)
  | some m =>
    calc decode o (encode o i ++ rest)
      _ = decode o (o.get m :: (encodeOperands i ++ rest)) := by
        rw [encode, encodeHead_of_mnemonic o hm, List.cons_append]
      _ = .ok (assembleBytes m (encodeOperands i), rest) :=
        decode_cons_append rest (decodeOpcode_get hinj m) (encodeOperands_length hm)
      _ = .ok (i, rest) := by rw [assembleBytes_encodeOperands hm]

/-- Settles O8, by the two ways the decoder can answer an instruction. -/
theorem encodeOfDecodeIsTheBytes : Obligations.EncodeOfDecodeIsTheBytes := by
  intro o bytes rest i h
  rcases decode_cases h with ⟨op, rfl, hop, rfl⟩ | ⟨op, m, bs, rfl, hop, hl, rfl⟩
  · exact ⟨Instr.wellFormed_unknown_iff.mpr hop, rfl⟩
  · have hm := assembleBytes_mnemonic m bs
    refine ⟨Instr.wellFormed_of_mnemonic o hm, ?_⟩
    rw [encode, encodeHead_of_mnemonic o hm, get_of_decodeOpcode hop,
      encodeOperands_assembleBytes hl, List.cons_append]

/-! ### Opcode bytes, lengths and written-out words -/

/-- Settles O9: only the way from a mnemonic's byte to the mnemonic needs `OPCODE` injective. -/
theorem opcodeByteDecidesTheMnemonic : Obligations.OpcodeByteDecidesTheMnemonic := by
  intro o op hinj
  refine ⟨fun m => ⟨get_of_decodeOpcode, ?_⟩, decodeOpcode_eq_none_iff⟩
  rintro rfl
  exact decodeOpcode_get hinj m

/-- Settles O10: each length is that of the mnemonic's format. -/
theorem lengthsAreThoseOfTheTable : Obligations.LengthsAreThoseOfTheTable := by
  refine ⟨rfl, fun o a b addr => ?_⟩
  simp only [encode_length]
  exact ⟨rfl, rfl, rfl, rfl, rfl, rfl, rfl, rfl⟩

/-- Settles O12, by running the decoder on each word. -/
theorem writtenOutWordsDecode : Obligations.WrittenOutWordsDecode :=
  ⟨rfl, rfl, rfl, rfl, rfl, rfl, rfl⟩

end Sys2Proof
end

section
/-! The statements about the execution cycle (R80 to R95): how a denied fetch, an unknown byte and an
invalid register end a step, where a step leaves `pc`, what it may write, and how runs end. -/

namespace Sys2Proof.Machine

/-! ### Faults -/

/-- What raising a fault does to the state (R15, R193). -/
theorem faultedWith_raiseFault (cause : HaltReason) (info : FaultInfo) (s : State) :
    FaultedWith cause info (severityOf (some info)) s (raiseFault cause info s) :=
  ⟨rfl, rfl, rfl, rfl, rfl, fun _ => rfl, rfl, rfl⟩

/-- `FaultedWith` does not speak of `pc`, so `FAULT_PC_ADVANCE` makes no difference to it. -/
theorem faultedWith_fetchDenied (r : DenyReason) (s : State) :
    FaultedWith .fetchDenied (.denied s.pc r) (denialSeverity r) s (fetchDenied r s) := by
  rw [← severityOf_denied s.pc r]
  unfold fetchDenied
  split
  · exact faultedWith_raiseFault _ _ (advance 1 s)
  · exact faultedWith_raiseFault _ _ s

/-- Where a fetch that is denied `k` bytes on leaves `pc` (R81). -/
theorem fetchDenied_advance_pc (r : DenyReason) (k : Nat) (s : State) :
    (fetchDenied r (advance k s)).pc =
      s.pc + BitVec.ofNat 16 (if s.cfg.faultPcAdvance then k + 1 else k) := by
  rw [fetchDenied_pc, advance_cfg, advance_pc]
  split
  · rw [BitVec.add_assoc, ← BitVec.ofNat_add]
  · rfl

/-- Settles O14, from the step's law for a halted engine. -/
theorem haltedEngineHasNoStep : Obligations.HaltedEngineHasNoStep :=
  fun _ h => step_of_halted h

/-- Settles O15: the step answers the denied fetch `k` bytes on, which is a fault with that byte's
address. -/
theorem deniedFetchHaltsAtTheDeniedByte : Obligations.DeniedFetchHaltsAtTheDeniedByte := by
  intro s k reason hrun hk hf hdenies
  obtain ⟨hd, rfl⟩ := (denies_iff ..).mp hdenies
  exact ⟨_, step_of_denied hrun hk hf hd, faultedWith_fetchDenied _ (advance k s),
    fetchDenied_advance_pc _ k s⟩

/-- Settles O17: the row's meaning raises its fault and nothing else. -/
theorem unknownOpcodeRaisesItsFault : Obligations.UnknownOpcodeRaisesItsFault :=
  fun s op => ⟨_, rfl, faultedWith_raiseFault .unknownOpcode (.opcode (s.pc - 1) op) s, rfl⟩

/-- Settles O46: the byte at 0xFFFF is fetched, `pc` wraps to 0x0000, and that address is privileged
whatever `PRIV_END` is. -/
theorem wrappedNonPrivilegedFetchIsDenied : Obligations.WrappedNonPrivilegedFetchIsDenied := by
  intro s hinv hpriv hpc ha
  have hread := fetch8_of_allowed ha
  rw [hpc] at hread
  have hwrap : (advance 1 s).pc = 0x0000 := by
    rw [advance_pc, hpc]
    rfl
  obtain ⟨⟨-, ⟨hsize, -⟩, -⟩, -⟩ := hinv
  have hdenies : (advance 1 s).Denies (advance 1 s).pc .privilege := by
    rw [hwrap]
    exact .inr ⟨rfl, hsize, hpriv, Nat.zero_le _⟩
  obtain ⟨hd, hreason⟩ := (denies_iff ..).mp hdenies
  refine ⟨_, _, hread, hwrap, fetch8_of_denied hd, ?_⟩
  rw [← hreason, ← hwrap]
  exact faultedWith_fetchDenied .privilege (advance 1 s)

/-! ### The register check comes first -/

/-- The reported field is the one after the valid ones (R85). -/
theorem firstInvalid_append {n : Nat} {valid later : List Byte} {f : Byte}
    (hvalid : ∀ g ∈ valid, g.toNat < n) (hf : n ≤ f.toNat) :
    firstInvalid n (valid ++ f :: later) = some f := by
  have hnone : firstInvalid n valid = none := firstInvalid_eq_none_iff.mpr hvalid
  unfold firstInvalid at hnone ⊢
  rw [List.find?_append, hnone, Option.none_or, List.find?_cons_of_pos (by simpa using hf)]

/-- Every instruction with a register field begins with the check of its fields (R84). -/
theorem exec_eq_withValidRegs {i : Instr} (h : i.regFields ≠ []) (s : State) :
    ∃ rest, exec i s = withValidRegs i.regFields s rest := by
  cases i with
  | halt | unknown => exact absurd rfl h
  | _ => exact ⟨_, rfl⟩

/-- Settles O35: the instruction begins with the register check, which stops at the first invalid
field. -/
theorem invalidRegisterIsReportedFirst : Obligations.InvalidRegisterIsReportedFirst := by
  intro s i valid later f hfields hvalid hf
  obtain ⟨rest, hexec⟩ := exec_eq_withValidRegs (i := i) (by simp [hfields]) s
  have hfirst := firstInvalid_append (later := later) hvalid hf
  rw [← hfields] at hfirst
  rw [hexec, withValidRegs_of_invalid hfirst]
  exact ⟨_, rfl, faultedWith_raiseFault .invalidRegister (.index f) s, rfl⟩

/-! ### Where a step leaves `pc` -/

/-- `fetchable_succ` from the other end: the last byte apart. -/
theorem fetchable_succ_last (s : State) (a : Addr) (n : Nat) :
    s.fetchable a (n + 1) =
      (s.fetchable a n && allowed s.cfg (a + BitVec.ofNat 16 n) s.priv) := by
  simp [State.fetchable, addrsFrom, List.range_succ]

/-- The gate allows each byte of a fetchable range. -/
theorem allowed_of_fetchable {s : State} {a : Addr} {n k : Nat} (h : s.fetchable a n = true)
    (hk : k < n) : allowed s.cfg (a + BitVec.ofNat 16 k) s.priv = true := by
  simp only [State.fetchable, addrsFrom, List.all_map, List.all_eq_true, List.mem_range] at h
  exact h k hk

/-- Settles O18, by the two ways a step can get to its next state. -/
theorem pcAfterAStepIsThatOfTheTable : Obligations.PcAfterAStepIsThatOfTheTable := by
  intro s t h
  rcases step_next_cases h with ⟨i, hi, hends⟩ | ⟨k, hk, hf, hd, rfl⟩
  · exact .inl ⟨i, hi, hends.pc_eq⟩
  · have hstops : s.fetchable s.pc (k + 1) = false := by
      rw [fetchable_succ_last, hd, Bool.and_false]
    exact .inr ⟨k, lt_maxLength_of_fetchesByte hk, rfl, hf, hstops, fetchDenied_advance_pc _ k s⟩

/-- A range that a non-privileged fetch may read starts above `PRIV_END` and does not go past the last
byte of the address space: address 0x0000 is privileged. -/
theorem fetchable_nonPrivileged_bounds {s : State} {a : Addr} {n : Nat} (hpriv : s.priv = false)
    (hn : 0 < n) (h : s.fetchable a n = true) :
    s.cfg.privEnd.toNat < a.toNat ∧ a.toNat + n ≤ 65536 := by
  have hfirst := privEnd_lt_of_allowed hpriv (allowed_of_fetchable h hn)
  rw [BitVec.add_zero] at hfirst
  refine ⟨hfirst, ?_⟩
  by_contra hover
  have hlt := a.isLt
  have hzero : a + BitVec.ofNat 16 (65536 - a.toNat) = 0 := by bv_omega
  have hwrapped := privEnd_lt_of_allowed hpriv
    (allowed_of_fetchable h (k := 65536 - a.toNat) (by omega))
  rw [hzero] at hwrapped
  exact absurd hwrapped (Nat.not_lt_zero _)

/-- Settles O47: a step that goes on fetched a whole instruction, whose bytes lie above `PRIV_END` and
end at 0xFFFF at the latest. -/
theorem nonPrivilegedStepRaisesPc : Obligations.NonPrivilegedStepRaisesPc := by
  intro s t hpriv h hrun
  rcases step_next_cases h with ⟨i, ⟨-, hf, -⟩, hends⟩ | ⟨k, -, -, -, rfl⟩
  · have hpos := i.length_pos
    obtain ⟨hstart, hend⟩ := fetchable_nonPrivileged_bounds hpriv hpos hf
    have hpc : t.pc.toNat = (s.pc.toNat + i.length) % 65536 := by
      simp [hends.pc_eq]
    refine ⟨hstart, ?_⟩
    rcases hend.lt_or_eq with hlt | heq
    · exact .inl (by omega)
    · exact .inr (BitVec.eq_of_toNat_eq (by rw [hpc, heq]; rfl))
  · cases hrun

/-! ### What a step writes -/

theorem ExecEnds.store_frame {reg : Byte} {addr : Addr} {s t : State}
    (h : ExecEnds (.store reg addr) s (.next t)) : SameMemoryBut addr s t ∧ t.regs = s.regs := by
  cases h with
  | wroteReg d v _ hi => exact absurd rfl (hi reg addr)
  | stored _ _ hi =>
    cases hi
    exact ⟨fun b hb => Memory.read_write_other _ _ _ _ hb, rfl⟩
  | halted | faulted => exact ⟨fun _ _ => rfl, rfl⟩

theorem ExecEnds.sameMemory {i : Instr} {s t : State} (h : ExecEnds i s (.next t))
    (hi : ∀ reg addr, i ≠ .store reg addr) : SameMemory s t := by
  cases h with
  | stored reg addr heq => exact absurd heq (hi reg addr)
  | wroteReg | halted | faulted => exact fun _ => rfl

theorem ExecEnds.readReg_eq {i : Instr} {s t : State} (h : ExecEnds i s (.next t)) {r : Byte}
    (hr : i.regFields.head? ≠ some r) : readReg t r = readReg s r := by
  cases h with
  | wroteReg d v hd => exact readReg_writeReg_other s d r v (by rintro rfl; exact hr hd)
  | stored | halted | faulted => rfl

/-- An instruction that halts the engine writes nothing. -/
theorem ExecEnds.frame_of_halts {i : Instr} {s t : State} (h : ExecEnds i s (.next t))
    (hs : s.running = true) (ht : t.running = false) : t.regs = s.regs ∧ SameMemory s t := by
  cases h with
  | wroteReg | stored => cases hs.symm.trans ht
  | halted | faulted => exact ⟨rfl, fun _ => rfl⟩

/-- Settles O36: the one instruction at `pc` writes as its ending says, and a denied fetch writes
nothing. -/
theorem stepWritesAtMostOneThing : Obligations.StepWritesAtMostOneThing := by
  intro s t h
  have hrun := running_of_step h
  obtain ⟨-, -, hlength⟩ := step_sameSetup h
  rcases step_next_cases h with ⟨i, hi, hends⟩ | ⟨k, -, -, -, rfl⟩
  · refine ⟨fun reg addr hstore => ?_, fun hnostore => ?_, fun j hj r hr => ?_,
      fun hnone => absurd hi (hnone i), hlength, hends.frame_of_halts hrun⟩
    · cases aboutToRun_unique hi hstore
      exact hends.store_frame
    · exact hends.sameMemory fun reg addr heq => hnostore reg addr (heq ▸ hi)
    · cases aboutToRun_unique hi hj
      exact hends.readReg_eq hr
  · obtain ⟨-, -, -, -, hregs, hmem, -⟩ := faultedWith_fetchDenied
      (denyReason s.cfg (s.pc + BitVec.ofNat 16 k)) (advance k s)
    exact ⟨fun _ _ _ => ⟨fun b _ => hmem b, hregs⟩, fun _ => hmem,
      fun _ _ r _ => by rw [readReg, hregs]; rfl, fun _ => hregs, hlength, fun _ => ⟨hregs, hmem⟩⟩

/-! ### How a run ends -/

/-- Settles O38: `HALT` is the one instruction that halts without a fault, and a denied fetch runs no
instruction. -/
theorem onlyHaltOrAFaultEndsARun : Obligations.OnlyHaltOrAFaultEndsARun := by
  intro s t h hhalted
  rcases step_next_cases h with ⟨i, hi, hends⟩ | ⟨k, hk, hf, hd, rfl⟩
  · have hrun := running_of_step h
    cases hends with
    | wroteReg | stored => cases hrun.symm.trans hhalted
    | halted hhalt =>
      subst hhalt
      exact .inl ⟨hi, ⟨rfl, rfl⟩, rfl⟩
    | faulted cause info hfault _ hne =>
      exact .inr ⟨fun hhalt => hne (aboutToRun_unique hi hhalt), hfault,
        faultEvent cause (some info), rfl, rfl, rfl⟩
  · exact .inr ⟨not_aboutToRun_of_denied hk hf hd .halt, rfl, _, rfl, rfl, fetchDenied_events _ _⟩

/-- An instruction answers a next state, but for the refusal of R118. -/
theorem ExecEnds.next_or_refused {i : Instr} {s : State} {o : Host.Outcome State Fault Refusal}
    (h : ExecEnds i s o) :
    (∃ t, o = .next t) ∨ (s.cfg.divZeroPolicy = .undefined ∧ o = .refused .divByZeroUndefined) := by
  cases h with
  | refusedDivision _ _ _ hp => exact .inr ⟨hp, rfl⟩
  | _ => exact .inl ⟨_, rfl⟩

theorem step_next_or_refused {s : State} (hrun : s.running = true) :
    (∃ t, step s = .next t) ∨
    (s.cfg.divZeroPolicy = .undefined ∧ step s = .refused .divByZeroUndefined) := by
  rcases step_cases s hrun with ⟨i, -, hstep⟩ | ⟨k, -, -, -, hstep⟩
  · rw [hstep]
    exact (exec_ends i (advance i.length s)).next_or_refused
  · exact .inl ⟨_, hstep⟩

/-- How many bytes a non-privileged run may still fetch: those from `pc` to the last address, and none
where `pc` is privileged. Each instruction that completes lowers it (R89). -/
def bytesLeft (s : State) : Nat :=
  if s.cfg.privEnd.toNat < s.pc.toNat then 65536 - s.pc.toNat else 0

theorem bytesLeft_le (s : State) : bytesLeft s ≤ 65536 - (s.cfg.privEnd.toNat + 1) := by
  unfold bytesLeft
  split <;> omega

theorem bytesLeft_lt_of_step {s t : State} (hpriv : s.priv = false) (h : step s = .next t)
    (hrun : t.running = true) : bytesLeft t < bytesLeft s := by
  obtain ⟨hstart, hpc⟩ := nonPrivilegedStepRaisesPc s t hpriv h hrun
  obtain ⟨-, hcfg, -⟩ := step_sameSetup h
  have hlt := s.pc.isLt
  rw [bytesLeft, bytesLeft, hcfg, if_pos hstart]
  rcases hpc with hup | hzero
  · split <;> omega
  · have hzero' : t.pc.toNat = 0 := by
      rw [hzero]
      rfl
    split <;> omega

/-- After at most `n` steps that go on, one step halts the engine or is refused (R89). -/
def EndsWithin (n : Nat) (s : State) : Prop :=
  ∃ k, k ≤ n ∧
    ((∃ t, runSteps (k + 1) s = .next t ∧ t.running = false) ∨
      (s.cfg.divZeroPolicy = .undefined ∧ runSteps (k + 1) s = .refused .divByZeroUndefined))

theorem endsWithin_of_step {m n : Nat} {s t : State} (hstep : step s = .next t) (hlt : m < n)
    (h : EndsWithin m t) : EndsWithin n s := by
  obtain ⟨k, hk, hends⟩ := h
  obtain ⟨-, hcfg, -⟩ := step_sameSetup hstep
  refine ⟨k + 1, by omega, ?_⟩
  rwa [runSteps_succ_of_next (k + 1) hstep, ← hcfg]

/-- Every step that goes on lowers `bytesLeft`, so there are no more of them than that. -/
theorem endsWithin_bytesLeft {s : State} (hrun : s.running = true) (hpriv : s.priv = false) :
    EndsWithin (bytesLeft s) s := by
  rcases step_next_or_refused hrun with ⟨t, hstep⟩ | ⟨hpolicy, hstep⟩
  · cases hgoes : t.running with
    | true =>
      have hlt := bytesLeft_lt_of_step hpriv hstep hgoes
      obtain ⟨hpriv', -⟩ := step_sameSetup hstep
      exact endsWithin_of_step hstep hlt (endsWithin_bytesLeft hgoes (hpriv'.trans hpriv))
    | false => exact ⟨0, Nat.zero_le _, .inl ⟨t, (runSteps_one s).trans hstep, hgoes⟩⟩
  · exact ⟨0, Nat.zero_le _, .inr ⟨hpolicy, (runSteps_one s).trans hstep⟩⟩
termination_by bytesLeft s

/-- Settles O43, since `bytesLeft` is at most the number of addresses above `PRIV_END`. -/
theorem everyNonPrivilegedRunHalts : Obligations.EveryNonPrivilegedRunHalts := by
  intro s hrun hpriv
  obtain ⟨k, hk, hends⟩ := endsWithin_bytesLeft hrun hpriv
  exact ⟨k, hk.trans (bytesLeft_le s), hends⟩

/-! ### A privileged run that never halts -/

/-- The engine goes on in a memory that is full of the byte 0x01: from every address on, the bytes
`01 01 01` are `LOAD_IMM R1, #1`, which leaves memory as it is, and `pc` wraps (R27). -/
structure LoopsInOnes (s : State) : Prop where
  running : s.running = true
  priv : s.priv = true
  cfg : s.cfg = Config.default
  ones : ∀ a : Addr, s.mem.read a.toNat = 1

theorem LoopsInOnes.aboutToRun {s : State} (h : LoopsInOnes s) : s.AboutToRun (.loadImm 1 1) := by
  refine ⟨h.running, ?_, ?_⟩
  · have hallowed : ∀ a : Addr, allowed s.cfg a s.priv = true := fun a => by
      rw [h.cfg, h.priv]
      exact (allowed_iff ..).mpr ⟨a.isLt, .inl rfl⟩
    exact List.all_eq_true.mpr fun a _ => hallowed a
  · rw [h.cfg]
    simp only [State.bytesAt, h.ones]
    rfl

theorem LoopsInOnes.step {s : State} (h : LoopsInOnes s) :
    ∃ t, step s = .next t ∧ LoopsInOnes t := by
  have hvalid : ∀ f ∈ [(1 : Byte)], f.toNat < (advance 3 s).cfg.nRegs := by
    rw [advance_cfg, h.cfg]
    decide
  have hstep : Machine.step s = .next (writeReg (advance 3 s) 1 1) :=
    (step_of_aboutToRun h.aboutToRun).trans (withValidRegs_of_valid hvalid)
  exact ⟨_, hstep, h.running, h.priv, h.cfg, h.ones⟩

theorem LoopsInOnes.runSteps {s : State} (h : LoopsInOnes s) (k : Nat) :
    ∃ t, runSteps k s = .next t ∧ t.running = true := by
  induction k generalizing s with
  | zero => exact ⟨s, rfl, h.running⟩
  | succ k ih =>
    obtain ⟨t, hstep, ht⟩ := h.step
    rw [runSteps_succ_of_next k hstep]
    exact ih ht

/-- The image that fills the default memory with the byte 0x01. -/
def onesImage : List Byte := List.replicate 65536 1

theorem onesImage_length : onesImage.length = 65536 := List.length_replicate

theorem onesImage_getElem? (a : Addr) : onesImage[a.toNat]? = some 1 :=
  List.getElem?_replicate_of_lt a.isLt

theorem loopsInOnes_of_start {s : State}
    (h : start Config.default onesImage 0x0000 0x0000 true = some s) : LoopsInOnes s := by
  obtain ⟨-, rfl⟩ := (start_eq_some_iff ..).mp h
  refine ⟨rfl, rfl, rfl, fun a => ?_⟩
  dsimp only
  rw [← Nat.zero_add a.toNat]
  exact loadBytes_read_inside [] 0 onesImage a.toNat 1 (by decide) (onesImage_getElem? a)

/-- Settles O44: the start with the image of ones meets the invariant and loops. -/
theorem somePrivilegedRunNeverHalts : Obligations.SomePrivilegedRunNeverHalts := by
  have hfits : (0x0000 : Addr).toNat + onesImage.length ≤ Config.default.memSize := by
    rw [onesImage_length]
    exact Nat.le_refl 65536
  have hstart := (start_eq_some_iff Config.default onesImage 0x0000 0x0000 true _).mpr ⟨hfits, rfl⟩
  have hloops := loopsInOnes_of_start hstart
  exact ⟨_, inv_of_start (by decide) hstart, hloops.cfg, hloops.priv, hloops.runSteps⟩

end Sys2Proof.Machine
end

section
/-! The statement about `LOAD_IMM` (R101): a valid register takes the immediate, and nothing else
changes. The laws of a register write under the invariant serve every instruction that ends in one. -/

namespace Sys2Proof.Machine

/-! ### A register write under the invariant -/

theorem regs_length_of_inv {s : State} (h : s.Inv) : s.regs.length = s.cfg.nRegs := by
  obtain ⟨-, hregs, -⟩ := h
  exact hregs

theorem readReg_writeReg_of_inv {s : State} {d : Byte} (v : Byte) (h : s.Inv)
    (hd : d.toNat < s.cfg.nRegs) : readReg (writeReg s d v) d = v :=
  readReg_writeReg_same s d v ((regs_length_of_inv h).symm ▸ hd)

theorem sameRegsBut_writeReg (s : State) (d v : Byte) : SameRegsBut d s (writeReg s d v) :=
  ⟨writeReg_regs_length s d v, fun r hr => readReg_writeReg_other s d r v hr⟩

theorem sameMemory_writeReg (s : State) (d v : Byte) : SameMemory s (writeReg s d v) :=
  fun _ => rfl

theorem sameControl_writeReg (s : State) (d v : Byte) : SameControl s (writeReg s d v) :=
  ⟨rfl, rfl, rfl, rfl, rfl, rfl, rfl⟩

/-! ### `LOAD_IMM` -/

/-- A `LOAD_IMM` of a valid register completes (R101). -/
theorem exec_loadImm_of_valid {s : State} {reg : Byte} (imm : Byte)
    (hreg : reg.toNat < s.cfg.nRegs) :
    exec (.loadImm reg imm) s = .next (writeReg s reg imm) := by
  rw [exec, execLoadImm, withValidRegs_of_valid (by simpa using hreg)]

/-- Settles O23: the instruction is one register write, whose result and frame are the write's. -/
theorem loadImmWritesTheImmediate : Obligations.LoadImmWritesTheImmediate :=
  fun s reg imm hinv hreg => ⟨writeReg s reg imm, exec_loadImm_of_valid imm hreg,
    readReg_writeReg_of_inv imm hinv hreg, sameRegsBut_writeReg s reg imm,
    sameMemory_writeReg s reg imm, sameControl_writeReg s reg imm⟩

end Sys2Proof.Machine
end

section
/-! The statements about the arithmetic family (R110 to R120). The shared handler of R111 is treated
once, for any of its functions; the four instructions differ in the function alone, and `DIV` in the
check of its divisor. -/

namespace Sys2Proof.Machine

/-! ### The shared handler -/

/-- An instruction that ends in the last phase of R111 for the function `f` writes `f` of its
operands' old values to `dst`, and nothing else. -/
theorem exec_writes_of_aluResult {i : Instr} {f : Byte → Byte → Byte} {s : State}
    {dst src : Byte} (hinv : s.Inv) (hdst : dst.toNat < s.cfg.nRegs)
    (hexec : exec i s = .next (aluResult f dst src s)) :
    ∃ t, exec i s = .next t ∧ readReg t dst = f (readReg s dst) (readReg s src) ∧
      SameRegsBut dst s t ∧ SameMemory s t ∧ SameControl s t :=
  ⟨_, hexec, readReg_writeReg_of_inv _ hinv hdst, sameRegsBut_writeReg s dst _,
    sameMemory_writeReg s dst _, sameControl_writeReg s dst _⟩

section
variable {s : State} {dst src : Byte} (hdst : dst.toNat < s.cfg.nRegs)
  (hsrc : src.toNat < s.cfg.nRegs)
include hdst hsrc

/-- Two valid operands pass the register check of an RR instruction. -/
theorem withValidRegs_two_of_valid (rest : Host.Outcome State Fault Refusal) :
    withValidRegs [dst, src] s rest = rest :=
  withValidRegs_of_valid (by simp [hdst, hsrc])

theorem exec_add_of_valid : exec (.add dst src) s = .next (aluResult aluAdd dst src s) :=
  withValidRegs_two_of_valid hdst hsrc _

theorem exec_sub_of_valid : exec (.sub dst src) s = .next (aluResult aluSub dst src s) :=
  withValidRegs_two_of_valid hdst hsrc _

theorem exec_mlp_of_valid : exec (.mlp dst src) s = .next (aluResult aluMlp dst src s) :=
  withValidRegs_two_of_valid hdst hsrc _

theorem exec_div_of_ne_zero (hz : readReg s src ≠ 0) :
    exec (.div dst src) s = .next (aluResult aluDiv dst src s) := by
  rw [exec, execDiv, withValidRegs_two_of_valid hdst hsrc, if_neg hz]

theorem exec_div_of_zero (hz : readReg s src = 0) :
    exec (.div dst src) s = divideByZero src s := by
  rw [exec, execDiv, withValidRegs_two_of_valid hdst hsrc, if_pos hz]

end

/-! ### Result, frame and completion -/

/-- Settles O24: the handler's write, with the function of R112. -/
theorem addWritesTheSumModulo256 : Obligations.AddWritesTheSumModulo256 := by
  intro s dst src hinv hdst hsrc
  obtain ⟨t, hexec, hval, hframe⟩ :=
    exec_writes_of_aluResult hinv hdst (exec_add_of_valid hdst hsrc)
  exact ⟨t, hexec, by rw [hval, aluAdd_toNat], hframe⟩

/-- The 256 that `aluSub` adds before it subtracts is lost modulo 256 (R113). -/
theorem aluSub_toNat_eq_emod (a b : Byte) :
    ((aluSub a b).toNat : Int) = (a.toNat - b.toNat : Int) % 256 := by
  have ha := a.isLt
  have hb := b.isLt
  rw [aluSub_toNat]
  omega

/-- Settles O25: the handler's write, with the function of R113. -/
theorem subWritesTheDifferenceModulo256 : Obligations.SubWritesTheDifferenceModulo256 := by
  intro s dst src hinv hdst hsrc
  obtain ⟨t, hexec, hval, hframe⟩ :=
    exec_writes_of_aluResult hinv hdst (exec_sub_of_valid hdst hsrc)
  exact ⟨t, hexec, by rw [hval, aluSub_toNat_eq_emod], hframe⟩

/-- Settles O26: the handler's write, with the function of R114. -/
theorem mlpWritesTheProductModulo256 : Obligations.MlpWritesTheProductModulo256 := by
  intro s dst src hinv hdst hsrc
  obtain ⟨t, hexec, hval, hframe⟩ :=
    exec_writes_of_aluResult hinv hdst (exec_mlp_of_valid hdst hsrc)
  exact ⟨t, hexec, by rw [hval, aluMlp_toNat], hframe⟩

/-- Settles O27: the divisor passes its check, and the handler writes the function of R115, which is
the quotient of two natural numbers and so has its bounds. -/
theorem divWritesTheUnsignedQuotient : Obligations.DivWritesTheUnsignedQuotient := by
  intro s dst src hinv hdst hsrc hz
  obtain ⟨t, hexec, hval, hframe⟩ :=
    exec_writes_of_aluResult hinv hdst (exec_div_of_ne_zero hdst hsrc hz)
  refine ⟨t, hexec, ?_, ?_, hframe⟩
  · rw [hval, aluDiv_toNat]
    exact Nat.div_mul_le_self _ _
  · rw [hval, aluDiv_toNat]
    exact Nat.lt_mul_of_div_lt (Nat.lt_succ_self _) (BitVec.toNat_pos_of_ne_zero hz)

/-! ### Division by zero -/

/-- Settles O28: `DIV` gets to `DivideByZero()` of R118, which follows the policy. -/
theorem divByZeroFollowsThePolicy : Obligations.DivByZeroFollowsThePolicy := by
  intro s dst src hdst hsrc hz
  rw [exec_div_of_zero hdst hsrc hz, divideByZero]
  constructor
  · intro hp
    rw [hp]
    exact ⟨_, rfl, faultedWith_raiseFault .divByZero (.index src) s, rfl⟩
  · intro hp
    rw [hp]

/-! ### One register as both operands -/

/-- Settles O29, from the four results above at `src = dst`. -/
theorem sameRegisterArithmetic : Obligations.SameRegisterArithmetic := by
  intro s r hinv hr
  refine ⟨?_, ?_, ?_, fun hz => ?_⟩
  · obtain ⟨t, hexec, hval, -⟩ := addWritesTheSumModulo256 s r r hinv hr hr
    exact ⟨t, hexec, by rw [hval, Nat.two_mul]⟩
  · obtain ⟨t, hexec, hval, -⟩ := subWritesTheDifferenceModulo256 s r r hinv hr hr
    rw [Int.sub_self, Int.zero_emod, Int.natCast_eq_zero] at hval
    exact ⟨t, hexec, BitVec.eq_of_toNat_eq hval⟩
  · obtain ⟨t, hexec, hval, -⟩ := mlpWritesTheProductModulo256 s r r hinv hr hr
    exact ⟨t, hexec, by rw [hval, Nat.pow_two]⟩
  · obtain ⟨t, hexec, hle, hlt, -⟩ := divWritesTheUnsignedQuotient s r r hinv hr hr hz
    have hone : (readReg t r).toNat = 1 := by
      rw [← Nat.div_eq_of_lt_le hle hlt, Nat.div_self (BitVec.toNat_pos_of_ne_zero hz)]
    exact ⟨t, hexec, BitVec.eq_of_toNat_eq hone⟩

end Sys2Proof.Machine
end

section
/-! The statements about the memory family (R130 to R133): how its address operand decodes, what an
allowed `STORE` and `LOAD_MEM` write, and that a denied one is a fault and writes nothing. -/

namespace Sys2Proof.Machine

/-! ### The address operand -/

/-- A four-byte instruction is its opcode byte, a register byte and two address bytes (R65). -/
theorem decode_threeOperands {o : OpcodeMap} (hinj : o.Injective) {m : Mnemonic}
    (hm : m.operandBytes = 3) (reg hi lo : Byte) :
    decode o [o.get m, reg, hi, lo] = .ok (assemble m reg hi lo, []) :=
  decode_cons_exact (decodeOpcode_get hinj m) hm.symm

/-- Settles O11: both RA instructions compose the same address from their last two bytes. -/
theorem addressOperandIsBigEndian : Obligations.AddressOperandIsBigEndian :=
  fun _ reg hi lo hinj => ⟨composeAddr hi lo, composeAddr_toNat hi lo,
    decode_threeOperands (m := .store) hinj rfl reg hi lo,
    decode_threeOperands (m := .loadMem) hinj rfl reg hi lo⟩

/-! ### Allowed accesses -/

theorem read_storeByte_of_inv {s : State} (a : Addr) (v : Byte) (h : s.Inv) :
    (storeByte s a v).mem.read a.toNat = v :=
  Memory.read_write_same _ _ _ (mem_wf_of_inv h)

theorem sameMemoryBut_storeByte (s : State) (a : Addr) (v : Byte) :
    SameMemoryBut a s (storeByte s a v) :=
  fun b hb => Memory.read_write_other s.mem a.toNat b v hb

theorem sameControl_storeByte (s : State) (a : Addr) (v : Byte) :
    SameControl s (storeByte s a v) :=
  ⟨rfl, rfl, rfl, rfl, rfl, rfl, rfl⟩

/-- Settles O30: the instruction is one byte stored, whose result and frame are the store's. -/
theorem storeWritesTheOneByte : Obligations.StoreWritesTheOneByte :=
  fun s _ addr hinv hreg ha => ⟨_, exec_store_of_allowed hreg ha,
    read_storeByte_of_inv addr _ hinv, sameMemoryBut_storeByte s addr _,
    storeByte_regs s addr _, sameControl_storeByte s addr _⟩

/-- A `LOAD_MEM` to a valid register from an allowed address completes (R132). -/
theorem exec_loadMem_of_allowed {s : State} {reg : Byte} {a : Addr}
    (hreg : reg.toNat < s.cfg.nRegs) (ha : allowed s.cfg a s.priv = true) :
    exec (.loadMem reg a) s = .next (writeReg s reg (s.mem.read a.toNat)) := by
  rw [exec, execLoadMem, withValidRegs_of_valid (by simpa using hreg), memRead_of_allowed ha]

/-- Settles O32: the instruction is one register write, whose result and frame are the write's. -/
theorem loadMemReadsTheOneByte : Obligations.LoadMemReadsTheOneByte :=
  fun s reg _ hinv hreg ha => ⟨_, exec_loadMem_of_allowed hreg ha,
    readReg_writeReg_of_inv _ hinv hreg, sameRegsBut_writeReg s reg _,
    sameMemory_writeReg s reg _, sameControl_writeReg s reg _⟩

/-! ### Denied accesses -/

/-- Where the gate denies the address, a `STORE` of a valid register only raises its fault (R131). -/
theorem exec_store_of_denied {s : State} {reg : Byte} {a : Addr} {reason : DenyReason}
    (hreg : reg.toNat < s.cfg.nRegs) (hdenies : s.Denies a reason) :
    exec (.store reg a) s = .next (raiseFault .dataWriteDenied (.denied a reason) s) := by
  rw [exec, execStore, withValidRegs_of_valid (by simpa using hreg),
    memWrite_eq_error_iff.mpr ((denies_iff ..).mp hdenies)]

/-- Where the gate denies the address, a `LOAD_MEM` to a valid register only raises its fault
(R132). -/
theorem exec_loadMem_of_denied {s : State} {reg : Byte} {a : Addr} {reason : DenyReason}
    (hreg : reg.toNat < s.cfg.nRegs) (hdenies : s.Denies a reason) :
    exec (.loadMem reg a) s = .next (raiseFault .dataReadDenied (.denied a reason) s) := by
  rw [exec, execLoadMem, withValidRegs_of_valid (by simpa using hreg),
    memRead_eq_error_iff.mpr ((denies_iff ..).mp hdenies)]

/-- The fault of a denied data access records the denial, and its event has the denial's severity
(R193). -/
theorem faultedWith_denied (cause : HaltReason) (a : Addr) (reason : DenyReason) (s : State) :
    FaultedWith cause (.denied a reason) (denialSeverity reason) s
      (raiseFault cause (.denied a reason) s) :=
  severityOf_denied a reason ▸ faultedWith_raiseFault cause (.denied a reason) s

/-- Settles O31: the denied store is its fault, which leaves memory, registers and `pc` alone. -/
theorem deniedStoreHaltsTheEngine : Obligations.DeniedStoreHaltsTheEngine :=
  fun s _ addr reason hreg hdenies => ⟨_, exec_store_of_denied hreg hdenies,
    faultedWith_denied .dataWriteDenied addr reason s, raiseFault_pc ..⟩

/-- Settles O33: the denied load is its fault, which leaves memory, registers and `pc` alone. -/
theorem deniedLoadHaltsTheEngine : Obligations.DeniedLoadHaltsTheEngine :=
  fun s _ addr reason hreg hdenies => ⟨_, exec_loadMem_of_denied hreg hdenies,
    faultedWith_denied .dataReadDenied addr reason s, raiseFault_pc ..⟩

end Sys2Proof.Machine
end

section
/-! The statements about the control family (R150): how `HALT` and a byte that is no opcode end a
run. -/

namespace Sys2Proof.Machine

/-- The step of a running engine at an allowed byte that is no opcode fetches the byte and raises its
fault (R152). -/
theorem step_of_unknown {s : State} (hrun : s.running = true)
    (ha : allowed s.cfg s.pc s.priv = true)
    (ho : decodeOpcode s.cfg.opcode (s.mem.read s.pc.toNat) = none) :
    step s = .next
      (raiseFault .unknownOpcode (.opcode s.pc (s.mem.read s.pc.toNat)) (advance 1 s)) := by
  have hback : (advance 1 s).pc - 1 = s.pc := by
    rw [advance_pc]
    exact BitVec.add_sub_cancel s.pc 1
  rw [step_of_aboutToRun (aboutToRun_unknown hrun ha ho)]
  change execUnknown _ (advance 1 s) = _
  rw [execUnknown, hback]

/-- Settles O16: the step is the byte's fault raised one byte on, and `FaultedWith` does not speak of
`pc`. -/
theorem unknownOpcodeByteHaltsTheEngine : Obligations.UnknownOpcodeByteHaltsTheEngine :=
  fun s hrun ha hnone =>
    ⟨_, step_of_unknown hrun ha (decodeOpcode_eq_none_iff.mpr hnone),
      faultedWith_raiseFault .unknownOpcode (.opcode s.pc _) (advance 1 s),
      (raiseFault_pc ..).trans (advance_pc 1 s)⟩

/-- `HALT` halts the engine normally, whatever its state and mode (R151). -/
theorem exec_halt (s : State) : exec .halt s = .next (haltNormally s) := rfl

/-- Settles O34: each clause is a law of the normal halt. -/
theorem haltEndsTheRunNormally : Obligations.HaltEndsTheRunNormally :=
  fun s => ⟨_, exec_halt s, haltNormally_running s, haltNormally_haltReason s,
    haltNormally_cfg s, haltNormally_regs s,
    fun a => congrArg (Memory.read · a) (haltNormally_mem s), haltNormally_pc s,
    haltNormally_priv s, haltNormally_faultInfo s, haltNormally_events s⟩

end Sys2Proof.Machine
end

section
/-! The statements about the two modes (R190), the event list (R193) and the codes of R181. Both
relations between two runs rest on one lemma: an instruction answers related outcomes in two states
that hold the same configuration, registers and `pc`, if its endings are related. -/

namespace Sys2Proof.Machine

/-! ### Related outcomes of one instruction -/

/-- Two states of one configuration, with the same registers and `pc`, that every way an instruction
can end (`ExecEnds`) takes to states related by `R`. -/
structure EndsRelated (R : State → State → Prop) (s u : State) : Prop where
  cfg_eq : u.cfg = s.cfg
  regs_eq : u.regs = s.regs
  pc_eq : u.pc = s.pc
  writeReg : ∀ d v, R (writeReg s d v) (writeReg u d v)
  storeByte : ∀ a v, R (storeByte s a v) (storeByte u a v)
  haltNormally : R (haltNormally s) (haltNormally u)
  raiseFault : ∀ cause info, R (raiseFault cause info s) (raiseFault cause info u)

section
variable {R : State → State → Prop} {s u : State} (h : EndsRelated R s u)
include h

theorem EndsRelated.readReg_eq (r : Byte) : readReg u r = readReg s r := by
  rw [readReg, h.regs_eq, readReg]

protected theorem EndsRelated.withValidRegs (fields : List Byte)
    {x y : Host.Outcome State Fault Refusal} (hrest : RelatedOutcome R x y) :
    RelatedOutcome R (withValidRegs fields s x) (withValidRegs fields u y) :=
  .withValidRegs h.cfg_eq h.raiseFault hrest

protected theorem EndsRelated.aluResult (f : Byte → Byte → Byte) (dst src : Byte) :
    R (aluResult f dst src s) (aluResult f dst src u) := by
  rw [aluResult, aluResult, h.readReg_eq, h.readReg_eq]
  exact h.writeReg dst _

protected theorem EndsRelated.divideByZero (src : Byte) :
    RelatedOutcome R (divideByZero src s) (divideByZero src u) := by
  unfold divideByZero
  rw [h.cfg_eq]
  cases s.cfg.divZeroPolicy with
  | fault => exact h.raiseFault _ _
  | undefined => rfl

protected theorem EndsRelated.execDiv (dst src : Byte) :
    RelatedOutcome R (execDiv dst src s) (execDiv dst src u) := by
  refine h.withValidRegs _ ?_
  rw [h.readReg_eq]
  split
  · exact h.divideByZero src
  · exact h.aluResult aluDiv dst src

/-- Every instruction answers related outcomes, if the two that access data do. -/
protected theorem EndsRelated.exec
    (hstore : ∀ reg a, RelatedOutcome R (execStore reg a s) (execStore reg a u))
    (hload : ∀ reg a, RelatedOutcome R (execLoadMem reg a s) (execLoadMem reg a u)) (i : Instr) :
    RelatedOutcome R (exec i s) (exec i u) := by
  cases i with
  | loadImm reg imm => exact h.withValidRegs _ (h.writeReg reg imm)
  | add dst src => exact h.withValidRegs _ (h.aluResult aluAdd dst src)
  | sub dst src => exact h.withValidRegs _ (h.aluResult aluSub dst src)
  | mlp dst src => exact h.withValidRegs _ (h.aluResult aluMlp dst src)
  | div dst src => exact h.execDiv dst src
  | store reg a => exact hstore reg a
  | loadMem reg a => exact hload reg a
  | halt => exact h.haltNormally
  | unknown op =>
    rw [exec, exec, execUnknown, execUnknown, h.pc_eq]
    exact h.raiseFault _ _

end

/-! ### The two modes -/

/-- The second state is the first in the privileged mode, unless the first ended in a denied data
access. -/
def SameButModeUnlessDenied (t v : State) : Prop :=
  t.haltReason ≠ .dataReadDenied → t.haltReason ≠ .dataWriteDenied → v = t.withPriv true

theorem endsRelated_withPriv (s : State) :
    EndsRelated SameButModeUnlessDenied s (s.withPriv true) where
  cfg_eq := rfl
  regs_eq := rfl
  pc_eq := rfl
  writeReg _ _ _ _ := rfl
  storeByte _ _ _ _ := rfl
  haltNormally _ _ := rfl
  raiseFault _ _ _ _ := rfl

/-- What the gate allows in some mode, it allows in the privileged one (R42). -/
theorem allowed_privileged {c : Config} {a : Addr} {p : Bool} (h : allowed c a p = true) :
    allowed c a true = true := by
  obtain ⟨hmem, -⟩ := (allowed_iff ..).mp h
  exact (allowed_iff ..).mpr ⟨hmem, .inl rfl⟩

theorem fetchable_withPriv {s : State} {a : Addr} {n : Nat} (h : s.fetchable a n = true) :
    (s.withPriv true).fetchable a n = true :=
  List.all_eq_true.mpr fun b hb => allowed_privileged (List.all_eq_true.mp h b hb)

theorem aboutToRun_withPriv {s : State} {i : Instr} (h : s.AboutToRun i) :
    (s.withPriv true).AboutToRun i := by
  obtain ⟨hrun, hf, hd⟩ := h
  exact ⟨hrun, fetchable_withPriv hf, hd⟩

theorem execStore_withPriv (s : State) (reg : Byte) (a : Addr) :
    RelatedOutcome SameButModeUnlessDenied (execStore reg a s)
      (execStore reg a (s.withPriv true)) := by
  refine (endsRelated_withPriv s).withValidRegs _ ?_
  cases ha : allowed s.cfg a s.priv with
  | false =>
    rw [memWrite_of_denied ha]
    cases memWrite (s.withPriv true) a (readReg (s.withPriv true) reg) <;>
      exact fun _ hwrite => absurd rfl hwrite
  | true =>
    rw [memWrite_of_allowed ha, memWrite_of_allowed (s := s.withPriv true) (allowed_privileged ha)]
    exact fun _ _ => rfl

theorem execLoadMem_withPriv (s : State) (reg : Byte) (a : Addr) :
    RelatedOutcome SameButModeUnlessDenied (execLoadMem reg a s)
      (execLoadMem reg a (s.withPriv true)) := by
  refine (endsRelated_withPriv s).withValidRegs _ ?_
  cases ha : allowed s.cfg a s.priv with
  | false =>
    rw [memRead_of_denied ha]
    cases memRead (s.withPriv true) a <;> exact fun hread _ => absurd rfl hread
  | true =>
    rw [memRead_of_allowed ha, memRead_of_allowed (s := s.withPriv true) (allowed_privileged ha)]
    exact fun _ _ => rfl

/-- Every instruction does alike in the privileged mode, but for a denied data access. -/
theorem exec_withPriv (i : Instr) (s : State) :
    RelatedOutcome SameButModeUnlessDenied (exec i s) (exec i (s.withPriv true)) :=
  (endsRelated_withPriv s).exec (execStore_withPriv s) (execLoadMem_withPriv s) i

/-- A step whose instruction is fetched whole does so too: the privileged mode fetches the same. -/
theorem step_withPriv {s : State} {i : Instr} (hi : s.AboutToRun i) :
    RelatedOutcome SameButModeUnlessDenied (step s) (step (s.withPriv true)) := by
  rw [step_of_aboutToRun hi, step_of_aboutToRun (aboutToRun_withPriv hi)]
  exact exec_withPriv i (advance i.length s)

/-- Settles O39: a step without a denial fetched its instruction whole, in the privileged mode as
well, and a halted engine has no step in either. -/
theorem modesDifferOnlyInTheGate : Obligations.ModesDifferOnlyInTheGate := by
  intro s _
  cases hr : s.running with
  | false =>
    rw [step_of_halted hr, step_of_halted (s := s.withPriv true) hr]
    exact ⟨nofun, nofun, fun _ hf => hf⟩
  | true =>
    rcases step_cases s hr with ⟨i, hi, -⟩ | ⟨k, -, -, -, hstep⟩
    · rcases relatedOutcome_iff.mp (step_withPriv hi) with
        ⟨t, v, hs, hu, hsame⟩ | ⟨f, hs, hu⟩ | ⟨r, hs, hu⟩
      · rw [hs, hu]
        refine ⟨?_, nofun, nofun⟩
        rintro _ ⟨⟩ - hread hwrite
        rw [hsame hread hwrite]
      · rw [hs, hu]
        exact ⟨nofun, nofun, fun _ hf => hf⟩
      · rw [hs, hu]
        exact ⟨nofun, fun _ hq => hq, nofun⟩
    · rw [hstep]
      refine ⟨?_, nofun, nofun⟩
      rintro _ ⟨⟩ hfetch
      exact absurd (fetchDenied_haltReason ..) hfetch

/-! ### The event list -/

theorem sameButEvents_of_events_eq {s u t : State} (h : t.events = s.events) :
    SameButEvents s u t (t.withEvents u.events) :=
  ⟨rfl, [], h.trans (List.append_nil _).symm, (List.append_nil _).symm⟩

section
variable (s : State) (evs : List Event)

/-- The fetch leaves both event lists alone, and each ending appends the same to both. -/
theorem endsRelated_withEvents (n : Nat) :
    EndsRelated (SameButEvents s (s.withEvents evs)) (advance n s)
      (advance n (s.withEvents evs)) where
  cfg_eq := rfl
  regs_eq := rfl
  pc_eq := rfl
  writeReg _ _ := sameButEvents_of_events_eq rfl
  storeByte _ _ := sameButEvents_of_events_eq rfl
  haltNormally := sameButEvents_of_events_eq rfl
  raiseFault cause info := ⟨rfl, [faultEvent cause (some info)], rfl, rfl⟩

theorem fetchDenied_withEvents (r : DenyReason) (n : Nat) :
    SameButEvents s (s.withEvents evs) (fetchDenied r (advance n s))
      (fetchDenied r (advance n (s.withEvents evs))) := by
  refine ⟨?_, [faultEvent .fetchDenied (some (.denied (advance n s).pc r))],
    fetchDenied_events .., fetchDenied_events ..⟩
  unfold fetchDenied
  rw [show (advance n (s.withEvents evs)).cfg = (advance n s).cfg from rfl]
  split <;> rfl

theorem execStore_withEvents (n : Nat) (reg : Byte) (a : Addr) :
    RelatedOutcome (SameButEvents s (s.withEvents evs)) (execStore reg a (advance n s))
      (execStore reg a (advance n (s.withEvents evs))) := by
  have h := endsRelated_withEvents s evs n
  refine h.withValidRegs _ ?_
  cases ha : allowed s.cfg a s.priv with
  | false =>
    rw [memWrite_of_denied (s := advance n s) ha,
      memWrite_of_denied (s := advance n (s.withEvents evs)) ha]
    exact h.raiseFault _ _
  | true =>
    rw [memWrite_of_allowed (s := advance n s) ha,
      memWrite_of_allowed (s := advance n (s.withEvents evs)) ha]
    exact h.storeByte a _

theorem execLoadMem_withEvents (n : Nat) (reg : Byte) (a : Addr) :
    RelatedOutcome (SameButEvents s (s.withEvents evs)) (execLoadMem reg a (advance n s))
      (execLoadMem reg a (advance n (s.withEvents evs))) := by
  have h := endsRelated_withEvents s evs n
  refine h.withValidRegs _ ?_
  rw [show memRead (advance n (s.withEvents evs)) a = memRead (advance n s) a from rfl]
  cases memRead (advance n s) a with
  | error reason => exact h.raiseFault _ _
  | ok b => exact h.writeReg reg b

/-- No instruction reads the events, and each appends the same to both lists. -/
theorem exec_withEvents (n : Nat) (i : Instr) :
    RelatedOutcome (SameButEvents s (s.withEvents evs)) (exec i (advance n s))
      (exec i (advance n (s.withEvents evs))) :=
  (endsRelated_withEvents s evs n).exec (execStore_withEvents s evs n)
    (execLoadMem_withEvents s evs n) i

end

/-- Settles O40: what the fetch reads is not the events, so both states run the same instruction or
are denied the same byte of it. -/
theorem eventsAreNeverRead : Obligations.EventsAreNeverRead := by
  intro s evs
  cases hr : s.running with
  | false =>
    rw [step_of_halted hr, step_of_halted (s := s.withEvents evs) hr]
    rfl
  | true =>
    rcases step_cases s hr with ⟨i, hi, hstep⟩ | ⟨k, hk, hf, hd, hstep⟩
    · rw [hstep, step_of_aboutToRun (s := s.withEvents evs) hi]
      exact exec_withEvents s evs i.length i
    · rw [hstep, step_of_denied (s := s.withEvents evs) hr hk hf hd]
      exact fetchDenied_withEvents s evs _ k

/-! ### The codes of the halt reasons -/

/-- Settles O45: each code is the row of R181 that `HaltReason.code` holds. -/
theorem haltReasonCodes : Obligations.HaltReasonCodes :=
  ⟨rfl, rfl, rfl, rfl, rfl, rfl, rfl, rfl⟩

end Sys2Proof.Machine
end

section
/-! The statements about which images start a run (R200 to R202): one that fits gives every piece of
state its value, one that does not is refused. -/

namespace Sys2Proof.Machine

/-- In a register file of zeros every register reads 0, a number past the file too. -/
theorem readReg_of_regs_eq_replicate {s : State} {n : Nat} (h : s.regs = List.replicate n 0)
    (i : Byte) : readReg s i = 0 := by
  rw [readReg, h, List.getD_eq_getElem?_getD, List.getElem?_replicate]
  split <;> rfl

/-- Settles O1: the fields are those of the start inversion; memory reads as the image inside its range
and as the empty memory outside it. -/
theorem startGivesEveryFieldItsValue : Obligations.StartGivesEveryFieldItsValue := by
  intro c img org entry privMode hfits
  have hinside : ∀ k b, img[k]? = some b →
      (loadBytes [] org.toNat img).read (org.toNat + k) = b :=
    fun k b hb => loadBytes_read_inside [] org.toNat img k b (by decide) hb
  have houtside : ∀ a, a < org.toNat ∨ org.toNat + img.length ≤ a →
      (loadBytes [] org.toNat img).read a = 0 :=
    fun a ha => loadBytes_read_outside [] org.toNat img a ha
  exact ⟨_, (start_eq_some_iff ..).mpr ⟨hfits, rfl⟩, rfl, List.length_replicate,
    readReg_of_regs_eq_replicate rfl, rfl, rfl, rfl, rfl, rfl, rfl, hinside, houtside⟩

/-- Settles O2: by the start inversion, an image that starts a run fits. -/
theorem oversizedImageStartsNoRun : Obligations.OversizedImageStartsNoRun := by
  intro c img org entry privMode hover
  refine Option.eq_none_iff_forall_ne_some.mpr fun s hs => ?_
  obtain ⟨hfits, -⟩ := (start_eq_some_iff ..).mp hs
  exact Nat.not_le.mpr hover hfits

end Sys2Proof.Machine
end
